-- ==== Sys2Proof/Word.lean ====
section
/-! DEFINITION. The word types of BBP and their plainest arithmetic (spec/00_scope.md R10). -/

namespace Sys2Proof

/-- A command word `cmd[15:0]`; bit 15 is its most significant bit (R10, R59). -/
abbrev Word := BitVec 16

/-- A byte; bit 7 is its most significant bit and bit 0 its least significant (R10). -/
abbrev Byte := BitVec 8

/-- `ceil(a / b)`: integer division rounded up (R10). -/
def divUp (a b : Nat) : Nat := (a + b - 1) / b

end Sys2Proof
end

