-- ==== Sys2Proof/Syntax.lean ====
section
/-! DEFINITION. The ten commands of BBP-CMD16 (spec/30_encoding.md R63), one constructor for each row of the opcode table. -/

namespace Sys2Proof

/-- The number of a sequence register: the value of a 4-bit register field. All 16 values name a register (R21, R61). -/
abbrev Reg := Fin 16

/-- A command with its operands assembled (R61). -/
inductive Instr where
  /-- `SQ_CLEAR Sd` (R74). -/
  | sqClear (d : Reg)
  /-- `SQ_APPEND Sd, b` (R75). -/
  | sqAppend (d : Reg) (b : Bool)
  /-- `SQ_GET Sd, i` (R76). -/
  | sqGet (d : Reg) (i : BitVec 8)
  /-- `SQ_LEN Sd` (R77). -/
  | sqLen (d : Reg)
  /-- `SQ_CLONE Sd, Ss` (R78). -/
  | sqClone (d : Reg) (src : Reg)
  /-- `PK_APPEND Ss` (R81). -/
  | pkAppend (src : Reg)
  /-- `PK_HASOVF` (R82). -/
  | pkHasOvf
  /-- `PK_DRAINF` (R83). -/
  | pkDrainF
  /-- `PK_DRAINP` (R84). -/
  | pkDrainP
  /-- `PK_ISEMPTY` (R85). -/
  | pkIsEmpty
  deriving DecidableEq, Repr

end Sys2Proof
end

