-- ==== Sys2Proof/WellFormed.lean ====
section
/-! DEFINITION. Well-formedness: the operand ranges an assembler checks (spec/30_encoding.md R68, R71, R72).

A value of `Instr` carries its ranges in its types, so an ill-formed command cannot be built. The checks therefore stand
on `Stmt`, an assembly statement whose operands are still numbers; `Instr.wellFormed` asks them of a command's own
statement. -/

namespace Sys2Proof

/-- An assembly statement as R68 writes it, its operands still numbers: the ten forms, the pseudo-instruction SQ_FORK (R71)
and the directive `.word` (R72). -/
inductive Stmt where
  | sqClear (d : Nat)
  | sqAppend (d b : Nat)
  | sqGet (d i : Nat)
  | sqLen (d : Nat)
  | sqClone (d src : Nat)
  | pkAppend (src : Nat)
  | pkHasOvf
  | pkDrainF
  | pkDrainP
  | pkIsEmpty
  | sqFork (d src b : Nat)
  | word (w : Nat)
  deriving DecidableEq, Repr

namespace Stmt

/-- A register operand is `S0` to `S15`. -/
def regOk (r : Nat) : Bool := decide (r < 16)

/-- A bit operand is `0` or `1`. -/
def bitOk (b : Nat) : Bool := decide (b < 2)

/-- A bit position is `0` to `255`. -/
def posOk (i : Nat) : Bool := decide (i < 256)

/-- A raw word has 16 bits. -/
def rawOk (w : Nat) : Bool := decide (w < 65536)

/-- The ranges of R68: an assembler refuses a statement that breaks one. -/
def wellFormed : Stmt → Bool
  | .sqClear d => regOk d
  | .sqAppend d b => regOk d && bitOk b
  | .sqGet d i => regOk d && posOk i
  | .sqLen d => regOk d
  | .sqClone d src => regOk d && regOk src
  | .pkAppend src => regOk src
  | .pkHasOvf => true
  | .pkDrainF => true
  | .pkDrainP => true
  | .pkIsEmpty => true
  | .sqFork d src b => regOk d && regOk src && bitOk b
  | .word w => rawOk w

end Stmt

/-- The assembly statement of a command: its mnemonic and its operands' numbers (R68). -/
def Instr.toStmt : Instr → Stmt
  | .sqClear d => .sqClear d.val
  | .sqAppend d b => .sqAppend d.val b.toNat
  | .sqGet d i => .sqGet d.val i.toNat
  | .sqLen d => .sqLen d.val
  | .sqClone d src => .sqClone d.val src.val
  | .pkAppend src => .pkAppend src.val
  | .pkHasOvf => .pkHasOvf
  | .pkDrainF => .pkDrainF
  | .pkDrainP => .pkDrainP
  | .pkIsEmpty => .pkIsEmpty

/-- A command is well formed when its assembly statement is. -/
def Instr.wellFormed (i : Instr) : Bool := i.toStmt.wellFormed

end Sys2Proof
end

