-- ==== Sys2Proof/Decode.lean ====
section
/-! DEFINITION. The decoder and the encoder of BBP-CMD16 (spec/30_encoding.md R59 to R66, R69). -/

namespace Sys2Proof

/-- Why a word is ILLEGAL (R65, R91): the two causes have one status. -/
inductive DecodeError where
  /-- OP is 0x0, 0x6, 0x7, 0xD, 0xE or 0xF. -/
  | reservedOp
  /-- OP names a command and a must-be-zero field is not zero (R62). -/
  | mustBeZero
  deriving DecidableEq, Repr

/-- `OP`, `cmd[15:12]` (R59). -/
def opField (w : Word) : BitVec 4 := w.extractLsb' 12 4

/-- `RA`, `cmd[11:8]`, as a register number (R59, R61). -/
def raField (w : Word) : Reg := (w.extractLsb' 8 4).toFin

/-- `IMM8`, `cmd[7:0]`; it is `IDX` of SQ_GET (R59, R60). -/
def imm8Field (w : Word) : BitVec 8 := w.extractLsb' 0 8

/-- `RB`, `cmd[3:0]`, as a register number (R60, R61). -/
def rbField (w : Word) : Reg := (w.extractLsb' 0 4).toFin

/-- `B`, `cmd[0]` (R60). -/
def bField (w : Word) : Bool := w.getLsbD 0

/-- One row of the opcode map: a word is the row's command exactly when `(w AND mask) = match` (R63). -/
structure Row where
  mnemonic : String
  pattern : Word
  mask : Word
  deriving DecidableEq, Repr

/-- The opcode map of R63, in its order. -/
def opcodeMap : List Row :=
  [⟨"SQ_CLEAR", 0x1000, 0xF0FF⟩, ⟨"SQ_APPEND", 0x2000, 0xF0FE⟩, ⟨"SQ_GET", 0x3000, 0xF000⟩,
   ⟨"SQ_LEN", 0x4000, 0xF0FF⟩, ⟨"SQ_CLONE", 0x5000, 0xF0F0⟩, ⟨"PK_APPEND", 0x8000, 0xF0FF⟩,
   ⟨"PK_HASOVF", 0x9000, 0xFFFF⟩, ⟨"PK_DRAINF", 0xA000, 0xFFFF⟩, ⟨"PK_DRAINP", 0xB000, 0xFFFF⟩,
   ⟨"PK_ISEMPTY", 0xC000, 0xFFFF⟩]

/-- `w` is the command of the row. -/
def Row.hits (r : Row) (w : Word) : Bool := w &&& r.mask == r.pattern

/-- OP values that no command has (R65). -/
def reservedOp (op : BitVec 4) : Bool :=
  op == 0x0 || op == 0x6 || op == 0x7 || op == 0xD || op == 0xE || op == 0xF

/-- The decoder: total, each word one of the ten commands or ILLEGAL (R63, R64, R65). -/
def decodeWord (w : Word) : Except DecodeError Instr :=
  if w &&& 0xF0FF = 0x1000 then .ok (.sqClear (raField w))
  else if w &&& 0xF0FE = 0x2000 then .ok (.sqAppend (raField w) (bField w))
  else if w &&& 0xF000 = 0x3000 then .ok (.sqGet (raField w) (imm8Field w))
  else if w &&& 0xF0FF = 0x4000 then .ok (.sqLen (raField w))
  else if w &&& 0xF0F0 = 0x5000 then .ok (.sqClone (raField w) (rbField w))
  else if w &&& 0xF0FF = 0x8000 then .ok (.pkAppend (raField w))
  else if w &&& 0xFFFF = 0x9000 then .ok .pkHasOvf
  else if w &&& 0xFFFF = 0xA000 then .ok .pkDrainF
  else if w &&& 0xFFFF = 0xB000 then .ok .pkDrainP
  else if w &&& 0xFFFF = 0xC000 then .ok .pkIsEmpty
  else if reservedOp (opField w) then .error .reservedOp
  else .error .mustBeZero

/-- A register number in the field `RA`: `r << 8`. -/
def raBits (r : Reg) : Word := BitVec.ofNat 16 (r.val <<< 8)

/-- The mnemonic of a command, as the opcode map has it (R63). -/
def Instr.mnemonic : Instr → String
  | .sqClear _ => "SQ_CLEAR"
  | .sqAppend _ _ => "SQ_APPEND"
  | .sqGet _ _ => "SQ_GET"
  | .sqLen _ => "SQ_LEN"
  | .sqClone _ _ => "SQ_CLONE"
  | .pkAppend _ => "PK_APPEND"
  | .pkHasOvf => "PK_HASOVF"
  | .pkDrainF => "PK_DRAINF"
  | .pkDrainP => "PK_DRAINP"
  | .pkIsEmpty => "PK_ISEMPTY"

/-- The encoder (R69). -/
def encode : Instr → Word
  | .sqClear d => 0x1000 ||| raBits d
  | .sqAppend d b => 0x2000 ||| raBits d ||| BitVec.ofNat 16 b.toNat
  | .sqGet d i => 0x3000 ||| raBits d ||| i.setWidth 16
  | .sqLen d => 0x4000 ||| raBits d
  | .sqClone d src => 0x5000 ||| raBits d ||| BitVec.ofNat 16 src.val
  | .pkAppend src => 0x8000 ||| raBits src
  | .pkHasOvf => 0x9000
  | .pkDrainF => 0xA000
  | .pkDrainP => 0xB000
  | .pkIsEmpty => 0xC000

/-- The word whose `nbits` low bits are those of `w`, every bit above them 0. -/
def tableWord (nbits w : Nat) : Word := BitVec.ofNat 16 (w % 2 ^ nbits)

/-- The instruction the decoder reads from an opcode-table word of `nbits` bits. -/
def decodeTableWord (nbits w : Nat) : Option Instr := (decodeWord (tableWord nbits w)).toOption

end Sys2Proof
end

