-- ==== Sys2Proof/Config.lean ====
section
/-! DEFINITION. The implementation parameters of BBP (spec/00_scope.md R7 to R9, R13) and what the spec leaves open. -/

namespace Sys2Proof

/-- `NSEQ`, the number of sequence registers: fixed at 16 (R7, R9). -/
def NSEQ : Nat := 16

/-- A LEGAL parameter set (R9). The three bounds are fields, so an illegal set cannot be built: it has no block, no
reset state and no behaviour (R9, R112). `NSEQ` is fixed at 16 and is no field. -/
structure Config where
  /-- `CAP_BYTES`, the capacity of the primary buffer in bytes; OPEN in the spec (R7, R30). -/
  capBytes : Nat
  /-- `W_SEQ`, the maximum length of a sequence register in bits (R7). -/
  wSeq : Nat
  /-- `1 <= W_SEQ` (R9). -/
  wSeq_pos : 1 ≤ wSeq
  /-- `W_SEQ <= 255` (R9). -/
  wSeq_le : wSeq ≤ 255
  /-- `CAP_BYTES >= OCAP_BYTES` (R9). -/
  cap_ge : divUp wSeq 8 ≤ capBytes
  deriving DecidableEq, Repr

namespace Config

/-- `OCAP_BYTES = ceil(W_SEQ / 8)`, the capacity of the overflow buffer (R8). -/
def ocapBytes (c : Config) : Nat := divUp c.wSeq 8

/-- `PBITS = 8 * CAP_BYTES`, the bits the primary buffer holds (R13). -/
def pbits (c : Config) : Nat := 8 * c.capBytes

/-- The elaboration check of R9 and R112 on a raw parameter set: a legal set gives a configuration, an illegal one
gives none. -/
def elaborate (capBytes wSeq nSeq : Nat) : Option Config :=
  if h : (1 ≤ wSeq ∧ wSeq ≤ 255) ∧ divUp wSeq 8 ≤ capBytes ∧ nSeq = NSEQ then
    some ⟨capBytes, wSeq, h.1.1, h.1.2, h.2.1⟩
  else none

/-- OPEN VALUE: how many bytes CAP_BYTES of this hardware has above the smallest legal 32 (R7 gives no value).
No body: nothing can be proved of it, so no claim rests on a capacity. DESIGN CHOICE of the form, log 1; safe. -/
opaque spareCapacity : Nat

/-- FREE VALUE: whether a reset that arrives during the command at a position of the command stream takes effect
before that command (R110, U1: 'Which of the two happens is not specified'). No body. Log 6; safe. -/
opaque resetFirst : Nat → Bool

/-- The hardware's parameter set: `W_SEQ = 255`, `CAP_BYTES` open with `CAP_BYTES >= OCAP_BYTES = 32` (R7, R8, R9). -/
def hardware : Config :=
  ⟨spareCapacity + 32, 255, by omega, by omega, by unfold divUp; omega⟩

/-- Bits that `BYTE_IDX` takes: `ceil(log2(CAP_BYTES + floor(W_SEQ/8) + 1))` (R28). -/
def byteIdxWidth (c : Config) : Nat := Nat.clog 2 (c.capBytes + c.wSeq / 8 + 1)

/-- Bits that `OSIZE` takes: it holds `0 .. OCAP_BYTES` (R29); the width itself is DEDUCED (log 7). -/
def osizeWidth (c : Config) : Nat := Nat.clog 2 (c.ocapBytes + 1)

/-- The storage bound of R39, in bits. -/
def storageBits (c : Config) : Nat :=
  16 * (8 + c.wSeq) + 8 * c.capBytes + 8 * c.ocapBytes + c.byteIdxWidth + 3 + 1 + c.osizeWidth

end Config

end Sys2Proof
end

