-- ==== Sys2Proof/Machine/State.lean ====
section
/-! DEFINITION. The state of BBP (spec/10_state.md R20), the responses (spec/30_encoding.md R66), the host's events
(spec/70_reset_and_hazards.md R109 to R115) and the reset state (R37). -/

namespace Sys2Proof.Machine

/-- The status of a response (R91). The reserved codes 6 to 15 are never produced, so they have no name here. -/
inductive Status where
  | ok
  | illegal
  | indexOutOfRange
  | seqFull
  | overflowPending
  | noOverflow
  deriving DecidableEq, Repr

/-- The one response of a command (R66). -/
structure Response where
  status : Status
  /-- The 8-bit result; 0 when the command returns no value. -/
  val : Byte
  /-- Drain data, first byte first. -/
  data : List Byte
  deriving DecidableEq, Repr

/-- A sequence register: a length and W_SEQ bit cells; `bits[i]` is position `i`, of which the first `len` belong to the
value (R20, R21). -/
structure BitSeq where
  len : Nat
  bits : List Bool
  deriving DecidableEq, Repr

/-- The empty sequence: length 0, every cell 0 (R37, R74). -/
def BitSeq.empty (wSeq : Nat) : BitSeq := ⟨0, List.replicate wSeq false⟩

/-- A byte buffer as the bytes that differ from 0x00, by strictly rising address. An address that is not listed reads
0x00, the reset contents R37 states. -/
abbrev Memory := List Host.Cell

/-- The packer unit's part of the state (R20, R28, R29, R32, R33). -/
structure Packer where
  /-- The primary buffer, addresses `0 .. CAP_BYTES-1`. -/
  P : Memory
  /-- The overflow buffer, addresses `0 .. OCAP_BYTES-1`. -/
  O : Memory
  /-- Cursor, byte part. -/
  byteIdx : Nat
  /-- Cursor, bit part: bits already written in byte `byteIdx`, from its most significant bit. -/
  bitIdx : Fin 8
  /-- Overflow-mode flag. -/
  ovf : Bool
  /-- Overflow allocation size in bytes. -/
  osize : Nat
  deriving DecidableEq, Repr

/-- The packer after reset (R37). -/
def Packer.reset : Packer := ⟨[], [], 0, 0, false, 0⟩

/-- What the host does next (R115). A reset takes effect between commands (R109), or arrives while a command is being
performed (R110). -/
inductive HostEvent where
  | command (w : Word)
  | reset
  | commandDuringReset (w : Word)
  deriving DecidableEq, Repr

/-- The block's state (R20) and the parameters of its step that R20 names: the configuration, the command stream and the
responses. -/
structure State where
  /-- The configuration, a constant of the instance (R30). Log 2. -/
  cfg : Config
  /-- `S0` to `S15` (R21). -/
  seqs : Vector BitSeq 16
  packer : Packer
  /-- The host's events to come, oldest first. The model's own field; log 3. -/
  inbox : List HostEvent
  /-- The position in the command stream (R25); counter of the free value too. Log 5. -/
  pos : Nat
  /-- The responses so far, oldest first: the observation of R18. The model's own field; log 4. -/
  responses : List Response
  deriving DecidableEq, Repr

/-- Why the machine stops with a fault. -/
inductive Fault where
  /-- A command reaches a cell that does not exist: a sequence cell at or past W_SEQ, or a logical bit outside P and O
  (R40, R42, R43). Raised by SQ_APPEND, SQ_GET, PK_APPEND, PK_DRAINF and PK_DRAINP, and only in states that break the
  invariants R24, R31, R34, which R31 says cannot be reached. Safe (log 8). -/
  | noSuchCell
  deriving DecidableEq, Repr

/-- Why the model gives an instruction no meaning. -/
inductive Refusal where
  /-- An instruction without a meaning yet; raised by an arm of `exec` alone, and no arm raises it now. Safe. -/
  | notModelled (mnemonic : String)
  deriving DecidableEq, Repr

/-- The state right after reset of a block built with a configuration (R37, R111), before any event of the host. -/
def State.resetOf (cfg : Config) : State :=
  { cfg := cfg
    seqs := Vector.replicate 16 (BitSeq.empty cfg.wSeq)
    packer := Packer.reset
    inbox := []
    pos := 0
    responses := [] }

/-- The state right after reset of this hardware (R7, R37). -/
def State.reset : State := State.resetOf Config.hardware

end Sys2Proof.Machine
end

