-- ==== Sys2Proof/Machine/Ops.lean ====
section
/-! DEFINITION. The named operations over buffers, cursor and responses that the commands share (spec/00_scope.md R12, R13;
spec/20_memory.md R42, R43; spec/60_exceptions.md R91, R92; spec/70_reset_and_hazards.md R109). -/

namespace Sys2Proof.Machine

/-! ### Buffers, byte by byte -/

/-- The byte at an address; an address that is not listed reads 0x00 (R37). -/
def Memory.read : Memory → Nat → Byte
  | [], _ => 0
  | (k, v) :: t, a => if k = a then v else Memory.read t a

/-- Put a byte into a tail whose addresses are all higher: 0x00 is not listed. -/
def Memory.consCell (a : Nat) (b : Byte) (t : Memory) : Memory := if b = 0 then t else (a, b) :: t

/-- Write one byte, keeping the canonical form. -/
def Memory.write : Memory → Nat → Byte → Memory
  | [], a, b => Memory.consCell a b []
  | (k, v) :: t, a, b =>
    if a < k then Memory.consCell a b ((k, v) :: t)
    else if a = k then Memory.consCell a b t
    else (k, v) :: Memory.write t a b

/-- The canonical form: addresses strictly rising, and no listed byte is 0x00, so equal buffers are equal lists. -/
def Memory.wf (m : Memory) : Bool :=
  decide (m.Pairwise fun x y => x.1 < y.1) && m.all fun c => c.2 != 0

/-- `MemRead(M, a, n)`: the `n` bytes from address `a`, in a buffer of `size` bytes (R12). -/
def Memory.readBytes (m : Memory) (size a n : Nat) : Option (List Byte) :=
  if a + n ≤ size then some ((List.range n).map fun k => m.read (a + k)) else none

/-- `MemWrite(M, a, n, v)`: the bytes of `v` from address `a` on, in a buffer of `size` bytes (R12). No command of the
block uses it. -/
def Memory.writeBytes (m : Memory) (size a : Nat) : List Byte → Option Memory
  | [] => some m
  | b :: rest => if a < size then Memory.writeBytes (m.write a b) size (a + 1) rest else none

/-! ### Buffers, bit by bit: MSB-first within each byte (R42, R44) -/

/-- `byte[k] <- v`, the other seven bits unchanged. -/
def setBit (x : Byte) (k : Nat) (v : Bool) : Byte :=
  if v then x ||| (1#8 <<< k) else x &&& ~~~(1#8 <<< k)

/-- Bit `i` of a buffer: bit `7 - (i mod 8)` of byte `i div 8`. -/
def Memory.getBit (m : Memory) (i : Nat) : Bool := (m.read (i / 8)).getLsbD (7 - i % 8)

/-- Write bit `i` of a buffer. -/
def Memory.putBit (m : Memory) (i : Nat) (v : Bool) : Memory :=
  m.write (i / 8) (setBit (m.read (i / 8)) (7 - i % 8) v)

/-- `P.GetBit(L)`, for `0 <= L < PBITS` (R42). -/
def Packer.getP (p : Packer) (c : Config) (L : Nat) : Option Bool :=
  if L < c.pbits then some (p.P.getBit L) else none

/-- `P.PutBit(L, b)` (R42). -/
def Packer.putP (p : Packer) (c : Config) (L : Nat) (b : Bool) : Option Packer :=
  if L < c.pbits then some { p with P := p.P.putBit L b } else none

/-- The logical bit addresses that the overflow buffer holds (R43, R52). -/
def inOverflow (c : Config) (L : Nat) : Bool :=
  decide (c.pbits ≤ L) && decide (L < c.pbits + 8 * c.ocapBytes)

/-- `O.GetBit(L)`, for `PBITS <= L < PBITS + 8*OCAP_BYTES` (R43). -/
def Packer.getO (p : Packer) (c : Config) (L : Nat) : Option Bool :=
  if inOverflow c L then some (p.O.getBit (L - c.pbits)) else none

/-- `O.PutBit(L, b)` (R43). -/
def Packer.putO (p : Packer) (c : Config) (L : Nat) (b : Bool) : Option Packer :=
  if inOverflow c L then some { p with O := p.O.putBit (L - c.pbits) b } else none

/-- The bit at a logical address, the overflow buffer continuing the primary one (R40, R43). -/
def Packer.logicalBit (p : Packer) (c : Config) (L : Nat) : Bool :=
  if L < c.pbits then p.P.getBit L else p.O.getBit (L - c.pbits)

/-- The byte at a logical byte address: `P` followed by `O` (R40). -/
def Packer.logicalByte (p : Packer) (c : Config) (a : Nat) : Byte :=
  if a < c.capBytes then p.P.read a else p.O.read (a - c.capBytes)

/-! ### The cursor (R13, R28) -/

/-- `CUR = 8 * BYTE_IDX + BIT_IDX`. -/
def Packer.cur (p : Packer) : Nat := 8 * p.byteIdx + p.bitIdx.val

/-- `CUR <- x`, that is `BYTE_IDX <- x div 8; BIT_IDX <- x mod 8`. -/
def Packer.setCur (p : Packer) (x : Nat) : Packer :=
  { p with byteIdx := x / 8, bitIdx := ⟨x % 8, Nat.mod_lt x (by decide)⟩ }

/-- `P <- all 0x00` (R83, R84). -/
def Packer.clearP (p : Packer) : Packer := { p with P := [] }

/-- `O <- all 0x00; OSIZE <- 0; OVF <- 0`: the end of overflow mode (R83). -/
def Packer.endOverflow (p : Packer) : Packer := { p with O := [], osize := 0, ovf := false }

/-! ### Packing and carrying (the loops of R81 and R83) -/

/-- Entering overflow mode with `remaining` bits of the append unpacked; in overflow mode already, nothing (R81). -/
def Packer.enterOverflow (p : Packer) (remaining : Nat) : Packer :=
  if p.ovf then p else { p with ovf := true, osize := divUp remaining 8 }

/-- The loop of PK_APPEND: each bit in position order to `P` while the cursor is below capacity, else to `O`, the first such
bit entering overflow mode (R81). -/
def Packer.packBits (p : Packer) (c : Config) : List Bool → Option Packer
  | [] => some p
  | b :: rest =>
    if p.cur < c.pbits then
      (p.putP c p.cur b).bind fun q => Packer.packBits (q.setCur (p.cur + 1)) c rest
    else
      ((p.enterOverflow (rest.length + 1)).putO c p.cur b).bind fun q =>
        Packer.packBits (q.setCur (p.cur + 1)) c rest

/-- The loop of PK_DRAINF: `n` bits of `src`'s overflow buffer, from bit `k` on, to the same bits of `P` (R83). -/
def Packer.carryBits (p src : Packer) (c : Config) (k : Nat) : Nat → Option Packer
  | 0 => some p
  | n + 1 =>
    (src.getO c (c.pbits + k)).bind fun b =>
      (p.putP c k b).bind fun q => Packer.carryBits q src c (k + 1) n

/-- The packer's state replaced. -/
def State.setPacker (s : State) (p : Packer) : State := { s with packer := p }

/-! ### Responses: success and rejection (R12, R66, R91, R92) -/

/-- The 4-bit code of a status (R91). -/
def Status.code : Status → BitVec 4
  | .ok => 0
  | .illegal => 1
  | .indexOutOfRange => 2
  | .seqFull => 3
  | .overflowPending => 4
  | .noOverflow => 5

/-- `zext_8` of one bit: the bit in `val[0]`, `val[7:1] = 0` (R10, R66). -/
def zext8 (b : Bool) : Byte := BitVec.ofNat 8 b.toNat

/-- `respond(val, data)`: the response of a successful command (R12). -/
def State.respond (s : State) (val : Byte) (data : List Byte) : State :=
  { s with responses := s.responses ++ [⟨.ok, val, data⟩] }

/-- `raise <Status>()`: the ONE way a command is rejected. Nothing of the block changes; the response carries the status,
`val = 0` and no data (R12, R92). There is no trap entry and no return from one (R100, R101). -/
def State.reject (s : State) (st : Status) : State :=
  { s with responses := s.responses ++ [⟨st, 0, []⟩] }

/-- A command's next state, or the fault of a cell that does not exist (log 8). -/
def orNoSuchCell : Option State → Host.Outcome State Fault Refusal
  | some t => .next t
  | none => .fault .noSuchCell

/-! ### The host's events -/

/-- The block takes the first event of the host off the stream. -/
def State.takeEvent (s : State) : State := { s with inbox := s.inbox.tail }

/-- The position in the command stream goes up by 1 (R25). -/
def State.advance (s : State) : State := { s with pos := s.pos + 1 }

/-- A reset: every piece of the block's state takes its reset value, the configuration is unchanged (R37, R109). What is not
the block's (the host's events, its position, the responses it has) stays. -/
def State.applyReset (s : State) : State :=
  { State.resetOf s.cfg with inbox := s.inbox, pos := s.pos, responses := s.responses }

/-- The host's next command is the word `w`. -/
def State.present (s : State) (w : Word) : State := { s with inbox := .command w :: s.inbox }

end Sys2Proof.Machine
end

