-- ==== Sys2Proof/Machine/Flags.lean ====
section
/-! DEFINITION. The status the host can ask for: OVF, which is stored, and EMPTY, which is derived (spec/10_state.md R26, R27). -/

namespace Sys2Proof.Machine

/-- `EMPTY = (CUR = 0)`: no bit is held (R27). -/
def Packer.empty (p : Packer) : Bool := decide (p.cur = 0)

/-- OVF as the 8-bit value PK_HASOVF answers (R66, R82). -/
def Packer.ovfVal (p : Packer) : Byte := zext8 p.ovf

/-- EMPTY as the 8-bit value PK_ISEMPTY answers (R66, R85). -/
def Packer.emptyVal (p : Packer) : Byte := zext8 p.empty

end Sys2Proof.Machine
end

