-- ==== Sys2Proof/Machine/Operands.lean ====
section
/-! DEFINITION. The operands of the commands: sequence registers and their bits (spec/10_state.md R21 to R23,
spec/20_memory.md R40, R41, spec/30_encoding.md R61). -/

namespace Sys2Proof.Machine

/-- `S[r]`: every register number names a register (R21, R61). -/
def State.seq (s : State) (r : Reg) : BitSeq := s.seqs.get r

/-- `S[r] <- q`; the other registers are unchanged, for none aliases another (R22). -/
def State.setSeq (s : State) (r : Reg) (q : BitSeq) : State := { s with seqs := s.seqs.set r.val q r.isLt }

/-- `bits[i]`, where that cell exists (R40). -/
def BitSeq.getBit (q : BitSeq) (i : Nat) : Option Bool := q.bits[i]?

/-- The value of a register as its bits in position order: `bits[0]` to `bits[len-1]` (R11, R21). -/
def BitSeq.value (q : BitSeq) : List Bool := q.bits.take q.len

/-- The value of a register, where all its cells exist (R40). -/
def BitSeq.read (q : BitSeq) : Option (List Bool) := if q.len ≤ q.bits.length then some q.value else none

/-- One bit more: `bits[len] <- b; len <- len + 1`, where the cell exists (R75). -/
def BitSeq.append (q : BitSeq) (b : Bool) : Option BitSeq :=
  if q.len < q.bits.length then some ⟨q.len + 1, q.bits.set q.len b⟩ else none

end Sys2Proof.Machine
end

