-- ==== Sys2Proof/Machine/Packing.lean ====
section
/-! DEFINITION. The packer unit's commands (spec/41_packer.md R80 to R85). -/

namespace Sys2Proof.Machine

/-- PK_APPEND (R81). The register is read at the moment the command is performed and is not consumed (R23, R120). -/
def execPkAppend (src : Reg) (s : State) : Host.Outcome State Fault Refusal :=
  if s.packer.ovf then .next (s.reject .overflowPending)
  else orNoSuchCell ((s.seq src).read.bind fun bits =>
    (s.packer.packBits s.cfg bits).map fun p => (s.setPacker p).respond 0 [])

/-- PK_HASOVF (R82). -/
def execPkHasOvf (s : State) : Host.Outcome State Fault Refusal :=
  .next (s.respond s.packer.ovfVal [])

/-- PK_DRAINF (R83). -/
def execPkDrainF (s : State) : Host.Outcome State Fault Refusal :=
  if s.packer.ovf then
    orNoSuchCell ((s.packer.P.readBytes s.cfg.capBytes 0 s.cfg.capBytes).bind fun data =>
      (s.packer.clearP.carryBits s.packer s.cfg 0 (s.packer.cur - s.cfg.pbits)).map fun p =>
        (s.setPacker (p.endOverflow.setCur (s.packer.cur - s.cfg.pbits))).respond 0 data)
  else .next (s.reject .noOverflow)

/-- PK_DRAINP (R84). -/
def execPkDrainP (s : State) : Host.Outcome State Fault Refusal :=
  if s.packer.ovf then .next (s.reject .overflowPending)
  else orNoSuchCell ((s.packer.P.readBytes s.cfg.capBytes 0 (divUp s.packer.cur 8)).map fun data =>
    (s.setPacker (s.packer.clearP.setCur 0)).respond 0 data)

/-- PK_ISEMPTY (R85). -/
def execPkIsEmpty (s : State) : Host.Outcome State Fault Refusal :=
  .next (s.respond s.packer.emptyVal [])

end Sys2Proof.Machine
end

