-- ==== Sys2Proof/Machine/Sequence.lean ====
section
/-! DEFINITION. The sequence unit's commands (spec/40_bitsequence.md R73 to R78). -/

namespace Sys2Proof.Machine

/-- SQ_CLEAR (R74). -/
def execSqClear (d : Reg) (s : State) : Host.Outcome State Fault Refusal :=
  .next ((s.setSeq d (BitSeq.empty s.cfg.wSeq)).respond 0 [])

/-- SQ_APPEND (R75). -/
def execSqAppend (d : Reg) (b : Bool) (s : State) : Host.Outcome State Fault Refusal :=
  if (s.seq d).len = s.cfg.wSeq then .next (s.reject .seqFull)
  else orNoSuchCell (((s.seq d).append b).map fun q => (s.setSeq d q).respond 0 [])

/-- SQ_GET (R76). -/
def execSqGet (d : Reg) (i : BitVec 8) (s : State) : Host.Outcome State Fault Refusal :=
  if (s.seq d).len ≤ i.toNat then .next (s.reject .indexOutOfRange)
  else orNoSuchCell (((s.seq d).getBit i.toNat).map fun b => s.respond (zext8 b) [])

/-- SQ_LEN (R77). -/
def execSqLen (d : Reg) (s : State) : Host.Outcome State Fault Refusal :=
  .next (s.respond (BitVec.ofNat 8 (s.seq d).len) [])

/-- SQ_CLONE (R78). -/
def execSqClone (d src : Reg) (s : State) : Host.Outcome State Fault Refusal :=
  .next ((s.setSeq d (s.seq src)).respond 0 [])

end Sys2Proof.Machine
end

