-- ==== Sys2Proof/Machine/Dispatch.lean ====
section
/-! DEFINITION. One arm for each command (spec/30_encoding.md R63). -/

namespace Sys2Proof.Machine

def exec (i : Instr) (s : State) : Host.Outcome State Fault Refusal :=
  match i with
  | .sqClear d => Sys2Proof.Machine.execSqClear d s
  | .sqAppend d b => Sys2Proof.Machine.execSqAppend d b s
  | .sqGet d k => Sys2Proof.Machine.execSqGet d k s
  | .sqLen d => Sys2Proof.Machine.execSqLen d s
  | .sqClone d src => Sys2Proof.Machine.execSqClone d src s
  | .pkAppend src => Sys2Proof.Machine.execPkAppend src s
  | .pkHasOvf => Sys2Proof.Machine.execPkHasOvf s
  | .pkDrainF => Sys2Proof.Machine.execPkDrainF s
  | .pkDrainP => Sys2Proof.Machine.execPkDrainP s
  | .pkIsEmpty => Sys2Proof.Machine.execPkIsEmpty s

end Sys2Proof.Machine
end

