-- ==== Sys2Proof/Machine/Perform.lean ====
section
/-! DEFINITION. Performing one command word, and one during which a reset arrives (spec/60_exceptions.md R91, R93, R98;
spec/70_reset_and_hazards.md R110). -/

namespace Sys2Proof.Machine

/-- Perform one command word: decode it, and reject it with ILLEGAL where no row matches, before any state is read
(R91, R93, R98). -/
def perform (w : Word) (s : State) : Host.Outcome State Fault Refusal :=
  match decodeWord w with
  | .ok i => exec i s
  | .error _ => .next (s.reject .illegal)

/-- A command during which a reset arrives: the reset takes effect before it (the command is not performed and has no
response) or after it, as the free value of the command's position says (R110; log 6). -/
def performDuringReset (w : Word) (resetComesFirst : Bool) (s : State) : Host.Outcome State Fault Refusal :=
  if resetComesFirst then .next s.applyReset
  else
    match perform w s with
    | .next t => .next t.applyReset
    | .fault f => .fault f
    | .refused r => .refused r

end Sys2Proof.Machine
end

