-- ==== Sys2Proof/Machine/Step.lean ====
section
/-! DEFINITION. One step of the block: the host's next event (spec/00_scope.md R16, spec/70_reset_and_hazards.md R109, R110,
R115). -/

namespace Sys2Proof.Machine

/-- One step. With no event from the host the block holds its state (R108). -/
def step (s : State) : Host.Outcome State Fault Refusal :=
  match s.inbox with
  | [] => .next s
  | .command w :: _ => perform w s.takeEvent.advance
  | .reset :: _ => .next s.takeEvent.applyReset
  | .commandDuringReset w :: _ => performDuringReset w (Config.resetFirst s.pos) s.takeEvent.advance

/-- The state in which the host's next command is the opcode-table word `w` of `nbits` bits. -/
def State.withFetchWord (s : State) (nbits w : Nat) : State := s.present (tableWord nbits w)

end Sys2Proof.Machine
end

