-- ==== Sys2Proof/Machine/Assembler.lean ====
section
/-! DEFINITION. The assembler and the disassembler (spec/30_encoding.md R68 to R72). They are no part of the block: no step
uses them. -/

namespace Sys2Proof

/-! ### Statements and words -/

/-- The words of a statement whose operands are in range (R69, R71, R72). -/
def Stmt.words : Stmt → List Word
  | .sqClear d => [encode (.sqClear (Fin.ofNat 16 d))]
  | .sqAppend d b => [encode (.sqAppend (Fin.ofNat 16 d) (decide (b = 1)))]
  | .sqGet d i => [encode (.sqGet (Fin.ofNat 16 d) (BitVec.ofNat 8 i))]
  | .sqLen d => [encode (.sqLen (Fin.ofNat 16 d))]
  | .sqClone d src => [encode (.sqClone (Fin.ofNat 16 d) (Fin.ofNat 16 src))]
  | .pkAppend src => [encode (.pkAppend (Fin.ofNat 16 src))]
  | .pkHasOvf => [encode .pkHasOvf]
  | .pkDrainF => [encode .pkDrainF]
  | .pkDrainP => [encode .pkDrainP]
  | .pkIsEmpty => [encode .pkIsEmpty]
  | .sqFork d src b =>
    [encode (.sqClone (Fin.ofNat 16 d) (Fin.ofNat 16 src)), encode (.sqAppend (Fin.ofNat 16 d) (decide (b = 1)))]
  | .word w => [BitVec.ofNat 16 w]

/-- Assemble a statement; a statement with an operand out of range is refused (R68). -/
def Stmt.assemble (t : Stmt) : Option (List Word) := if t.wellFormed then some t.words else none

/-- Disassemble a word: its command, or `.word` of it where it is ILLEGAL (R70). -/
def disassemble (w : Word) : Stmt :=
  match decodeWord w with
  | .ok i => i.toStmt
  | .error _ => .word w.toNat

/-! ### Lines of text -/

namespace Asm

/-- A space or a tab (log 10). -/
def isSpace (c : Char) : Bool := c == ' ' || c == '\t'

/-- Without the white space at both ends. -/
def trim (cs : List Char) : List Char := ((cs.dropWhile isSpace).reverse.dropWhile isSpace).reverse

/-- Cut at every comma. -/
def cutAtCommas : List Char → List (List Char)
  | [] => [[]]
  | c :: cs =>
    if c == ',' then [] :: cutAtCommas cs
    else
      match cutAtCommas cs with
      | [] => [[c]]
      | f :: rest => (c :: f) :: rest

/-- The operands of a line, each trimmed; none where nothing stands after the mnemonic. -/
def operands (cs : List Char) : List (List Char) :=
  if (trim cs).isEmpty then [] else (cutAtCommas cs).map trim

/-- The value of a digit of base 16. -/
def digit (c : Char) : Option Nat :=
  if '0' ≤ c ∧ c ≤ '9' then some (c.toNat - '0'.toNat)
  else if 'a' ≤ c ∧ c ≤ 'f' then some (c.toNat - 'a'.toNat + 10)
  else if 'A' ≤ c ∧ c ≤ 'F' then some (c.toNat - 'A'.toNat + 10)
  else none

/-- Digits of a base, most significant first, after the value read so far. -/
def digits (base : Nat) : Nat → List Char → Option Nat
  | n, [] => some n
  | n, c :: cs =>
    match digit c with
    | some d => if d < base then digits base (base * n + d) cs else none
    | none => none

/-- A decimal number without a leading zero (log 10). -/
def decimal (cs : List Char) : Option Nat :=
  if cs.isEmpty || (decide (1 < cs.length) && cs.head? == some '0') then none else digits 10 0 cs

/-- `0x` and hexadecimal digits. -/
def hex : List Char → Option Nat
  | '0' :: 'x' :: d :: ds => digits 16 0 (d :: ds)
  | _ => none

/-- A register name, in either case. -/
def register : List Char → Option Nat
  | 'S' :: cs => decimal cs
  | 's' :: cs => decimal cs
  | _ => none

/-- A bit position: decimal, or `0x` and hexadecimal. -/
def position (cs : List Char) : Option Nat := (hex cs).or (decimal cs)

/-- The raw word of `.word 0xhhhh`: exactly four hexadecimal digits (R72). -/
def rawWord (cs : List Char) : Option Nat := if cs.length = 6 then hex cs else none

/-- One statement from a mnemonic, in capitals, and its operands; a form that is not one of R68's is refused. -/
def statement (mnemonic : List Char) (ops : List (List Char)) : Option Stmt :=
  match String.ofList mnemonic, ops with
  | "SQ_CLEAR", [d] => (register d).map .sqClear
  | "SQ_APPEND", [d, b] => (register d).bind fun d => (decimal b).map (.sqAppend d)
  | "SQ_GET", [d, i] => (register d).bind fun d => (position i).map (.sqGet d)
  | "SQ_LEN", [d] => (register d).map .sqLen
  | "SQ_CLONE", [d, src] => (register d).bind fun d => (register src).map (.sqClone d)
  | "PK_APPEND", [src] => (register src).map .pkAppend
  | "PK_HASOVF", [] => some .pkHasOvf
  | "PK_DRAINF", [] => some .pkDrainF
  | "PK_DRAINP", [] => some .pkDrainP
  | "PK_ISEMPTY", [] => some .pkIsEmpty
  | "SQ_FORK", [d, src, b] =>
    (register d).bind fun d => (register src).bind fun src => (decimal b).map (.sqFork d src)
  | ".WORD", [w] => (rawWord w).map .word
  | _, _ => none

/-- The words of one line; a comment after `;` and a blank line give none (R68; log 10). -/
def line (cs : List Char) : Option (List Word) :=
  let text := trim (cs.takeWhile (· != ';'))
  if text.isEmpty then some []
  else
    (statement ((text.takeWhile fun c => !isSpace c).map Char.toUpper)
      (operands (text.dropWhile fun c => !isSpace c))).bind Stmt.assemble

/-- The words of a program's lines, in order; refused where one line is. -/
def program : List (List Char) → Option (List Word)
  | [] => some []
  | l :: ls => (line l).bind fun ws => (program ls).map fun rest => ws ++ rest

/-- The name of a register. -/
def registerText (r : Nat) : List Char := 'S' :: (toString r).toList

/-- The text of an operand list. -/
def commaText : List (List Char) → List Char
  | [] => []
  | [a] => a
  | a :: rest => a ++ [',', ' '] ++ commaText rest

/-- One hexadecimal digit. -/
def hexDigit (n : Nat) : Char := if n < 10 then Char.ofNat (48 + n) else Char.ofNat (87 + n)

/-- `0xhhhh`. -/
def wordText (w : Nat) : List Char :=
  ['0', 'x', hexDigit (w / 4096 % 16), hexDigit (w / 256 % 16), hexDigit (w / 16 % 16), hexDigit (w % 16)]

/-- The text of a statement (R68, R70). -/
def text (t : Stmt) : List Char :=
  let num (n : Nat) : List Char := (toString n).toList
  let form (m : String) (ops : List (List Char)) : List Char := m.toList ++ [' '] ++ commaText ops
  match t with
  | .sqClear d => form "SQ_CLEAR" [registerText d]
  | .sqAppend d b => form "SQ_APPEND" [registerText d, num b]
  | .sqGet d i => form "SQ_GET" [registerText d, num i]
  | .sqLen d => form "SQ_LEN" [registerText d]
  | .sqClone d src => form "SQ_CLONE" [registerText d, registerText src]
  | .pkAppend src => form "PK_APPEND" [registerText src]
  | .pkHasOvf => "PK_HASOVF".toList
  | .pkDrainF => "PK_DRAINF".toList
  | .pkDrainP => "PK_DRAINP".toList
  | .pkIsEmpty => "PK_ISEMPTY".toList
  | .sqFork d src b => form "SQ_FORK" [registerText d, registerText src, num b]
  | .word w => form ".word" [wordText w]

end Asm

end Sys2Proof
end

