-- ==== Sys2Proof/Machine/Protocol.lean ====
section
/-! DEFINITION. The host outside the block: issuing words, the Encoder protocol and the records that the laws of the packer
speak of (spec/41_packer.md R86, R87, R89; spec/70_reset_and_hazards.md R114, R115). No step uses them. -/

namespace Sys2Proof.Machine

/-- The host issues one word and the block takes one step (R115). -/
def issue (w : Word) (s : State) : Host.Outcome State Fault Refusal := step (s.present w)

/-- The state after a word, where the step goes on. -/
def issued (w : Word) (s : State) : Option State :=
  match issue w s with
  | .next t => some t
  | .fault _ => none
  | .refused _ => none

/-- A list of words issued in order (R25, R121). -/
def issueAll : List Word → State → Option State
  | [], s => some s
  | w :: ws, s => (issued w s).bind (issueAll ws)

/-- The response the host has last received. -/
def State.lastResponse (s : State) : Response := s.responses.getLastD ⟨.ok, 0, []⟩

/-! ### Bits and bytes of the packed stream -/

/-- The bits of bytes, MSB-first within each byte (R44, R46). -/
def bitsOfBytes (bs : List Byte) : List Bool :=
  bs.flatMap fun b => (List.range 8).map fun i => b.getLsbD (7 - i)

/-- `pad8(x)` before it is read as bytes: `x` followed by `(8 - |x| mod 8) mod 8` zero bits (R87). -/
def padBits (x : List Bool) : List Bool := x ++ List.replicate ((8 - x.length % 8) % 8) false

/-! ### The records of R86 -/

/-- `Σ` and `E`. -/
structure Records where
  /-- `Σ`: the values packed by the successful PK_APPENDs, in issue order. -/
  appended : List Bool
  /-- `E`: one segment for each successful drain, in issue order. -/
  drained : List Bool
  deriving DecidableEq, Repr

/-- The records after a word issued in `s` had the response `r`. A PK_DRAINP contributes the first CUR bits of its data (the
CUR before the drain), so its pad bits are not counted. -/
def Records.note (rec : Records) (s : State) (w : Word) (r : Response) : Records :=
  if r.status = .ok then
    match decodeWord w with
    | .ok (.pkAppend src) => { rec with appended := rec.appended ++ (s.seq src).value }
    | .ok .pkDrainF => { rec with drained := rec.drained ++ bitsOfBytes r.data }
    | .ok .pkDrainP => { rec with drained := rec.drained ++ (bitsOfBytes r.data).take s.packer.cur }
    | _ => rec
  else rec

/-- A list of words issued in order, with the records kept. -/
def recordAll : List Word → State → Records → Option (State × Records)
  | [], s, rec => some (s, rec)
  | w :: ws, s, rec => (issued w s).bind fun t => recordAll ws t (rec.note s w t.lastResponse)

/-! ### The Encoder protocol (R114) -/

/-- The words that load a codeword into a register: SQ_CLEAR, then one SQ_APPEND for each bit. -/
def loadWords (x : Reg) (q : List Bool) : List Word :=
  encode (.sqClear x) :: q.map fun b => encode (.sqAppend x b)

/-- Load a codeword into a register; skipped where the register holds it already. -/
def load (x : Reg) (q : List Bool) (s : State) : Option State :=
  if (s.seq x).value = q then some s else issueAll (loadWords x q) s

/-- What the host has at a point of the protocol. -/
structure Stream where
  state : State
  /-- The data bytes of all drains so far. -/
  output : List Byte
  /-- How many PK_DRAINF it has issued. -/
  drains : Nat
  deriving DecidableEq, Repr

/-- PK_APPEND, then PK_HASOVF, then PK_DRAINF where it reported 1. -/
def Stream.append (h : Stream) (x : Reg) : Option Stream :=
  (issued (encode (.pkAppend x)) h.state).bind fun a =>
    (issued (encode .pkHasOvf) a).bind fun b =>
      if b.lastResponse.val = 1 then
        (issued (encode .pkDrainF) b).map fun d => ⟨d, h.output ++ d.lastResponse.data, h.drains + 1⟩
      else some { h with state := b }

/-- The protocol's loop over codewords, each with the register the host loads it into. -/
def Stream.encodeAll (h : Stream) : List (Reg × List Bool) → Option Stream
  | [] => some h
  | (x, q) :: rest =>
    (load x q h.state).bind fun s => (Stream.append { h with state := s } x).bind fun g => Stream.encodeAll g rest

/-- The one PK_DRAINP that ends the stream. -/
def Stream.finish (h : Stream) : Option Stream :=
  (issued (encode .pkDrainP) h.state).map fun d => { h with state := d, output := h.output ++ d.lastResponse.data }

/-- The Encoder protocol for a list of codewords, from a state. -/
def encodeStream (qs : List (Reg × List Bool)) (s : State) : Option Stream :=
  (Stream.encodeAll ⟨s, [], 0⟩ qs).bind Stream.finish

end Sys2Proof.Machine
end

