-- ==== Sys2Proof/Safety.lean ====
section
/-! DEFINITION. What the claims call a good state and a safe step: the invariants SEQZ, CURSOR and PADZ (spec/10_state.md R24,
R31, R34), the shape of the buffers (R32, R33), the block's own part of a state (R20) and the held bits (spec/41_packer.md
R86). -/

namespace Sys2Proof.Machine

/-- A register has W_SEQ cells and a legal length (R21), and every cell at or past the length is 0: SEQZ (R24). -/
structure BitSeq.Ok (c : Config) (q : BitSeq) : Prop where
  cells : q.bits.length = c.wSeq
  len_le : q.len ≤ c.wSeq
  seqz : ∀ i, q.len ≤ i → i < c.wSeq → q.getBit i = some false

/-- CURSOR (R31). -/
structure Packer.CursorOk (c : Config) (p : Packer) : Prop where
  normal : p.ovf = false → p.cur ≤ c.pbits ∧ p.osize = 0
  overflow : p.ovf = true →
    c.pbits < p.cur ∧ p.cur ≤ c.pbits + c.wSeq ∧ p.osize = divUp (p.cur - c.pbits) 8

/-- PADZ (R34). -/
structure Packer.Padz (c : Config) (p : Packer) : Prop where
  primary : ∀ L, min p.cur c.pbits ≤ L → L < c.pbits → p.getP c L = some false
  overflow : ∀ L, max p.cur c.pbits ≤ L → L < c.pbits + 8 * c.ocapBytes → p.getO c L = some false

/-- Both buffers are in canonical form and list only addresses they have (R32, R33). -/
structure Packer.BuffersOk (c : Config) (p : Packer) : Prop where
  wfP : p.P.wf = true
  wfO : p.O.wf = true
  insideP : ∀ x ∈ p.P, x.1 < c.capBytes
  insideO : ∀ x ∈ p.O, x.1 < c.ocapBytes

/-- The packer's invariants. -/
structure Packer.Ok (c : Config) (p : Packer) : Prop where
  cursor : p.CursorOk c
  padz : p.Padz c
  buffers : p.BuffersOk c

/-- The invariant of the block: reset establishes it and every step keeps it. -/
structure Inv (s : State) : Prop where
  seqs : ∀ r : Reg, (s.seq r).Ok s.cfg
  packer : s.packer.Ok s.cfg

/-- The tuple that R20 says is the state of the block. -/
structure Block where
  seqs : Vector BitSeq 16
  packer : Packer
  deriving DecidableEq, Repr

/-- The block's own part of a state. -/
def State.block (s : State) : Block := ⟨s.seqs, s.packer⟩

/-- The held bits `H`: the logical bits `0 .. CUR-1` (R86). -/
def Packer.heldBits (p : Packer) (c : Config) : List Bool := (List.range p.cur).map (p.logicalBit c)

/-- The registers a command reads: the table of R23. -/
def readsReg : Instr → Reg → Bool
  | .sqClear _, _ => false
  | .sqAppend d _, r => r == d
  | .sqGet d _, r => r == d
  | .sqLen d, r => r == d
  | .sqClone _ src, r => r == src
  | .pkAppend src, r => r == src
  | .pkHasOvf, _ => false
  | .pkDrainF, _ => false
  | .pkDrainP, _ => false
  | .pkIsEmpty, _ => false

/-- The registers a command writes: the table of R23. -/
def writesReg : Instr → Reg → Bool
  | .sqClear d, r => r == d
  | .sqAppend d _, r => r == d
  | .sqGet _ _, _ => false
  | .sqLen _, _ => false
  | .sqClone d _, r => r == d
  | .pkAppend _, _ => false
  | .pkHasOvf, _ => false
  | .pkDrainF, _ => false
  | .pkDrainP, _ => false
  | .pkIsEmpty, _ => false

/-- The command is one of the sequence unit's (R63). -/
def isSq : Instr → Bool
  | .sqClear _ => true
  | .sqAppend _ _ => true
  | .sqGet _ _ => true
  | .sqLen _ => true
  | .sqClone _ _ => true
  | .pkAppend _ => false
  | .pkHasOvf => false
  | .pkDrainF => false
  | .pkDrainP => false
  | .pkIsEmpty => false

/-- A query: a command without side effects (R51). -/
def isQuery : Instr → Bool
  | .sqClear _ => false
  | .sqAppend _ _ => false
  | .sqGet _ _ => true
  | .sqLen _ => true
  | .sqClone _ _ => false
  | .pkAppend _ => false
  | .pkHasOvf => true
  | .pkDrainF => false
  | .pkDrainP => false
  | .pkIsEmpty => true

/-- Two registers with one value, which may differ in the cells at or past the length (R24, R35). -/
structure BitSeq.SameValue (c : Config) (q q' : BitSeq) : Prop where
  cells : q.bits.length = c.wSeq
  cells' : q'.bits.length = c.wSeq
  len_le : q.len ≤ c.wSeq
  len : q.len = q'.len
  value : q.value = q'.value

/-- Two states that differ at most in cells at or past a register's length. -/
structure SameValues (s t : State) : Prop where
  cfg : s.cfg = t.cfg
  seqs : ∀ r : Reg, (s.seq r).SameValue s.cfg (t.seq r)
  packer : s.packer = t.packer
  inbox : s.inbox = t.inbox
  pos : s.pos = t.pos
  responses : s.responses = t.responses

/-- The packer with another overflow allocation size. -/
def Packer.withOsize (p : Packer) (n : Nat) : Packer := { p with osize := n }

/-- The state with another overflow allocation size. -/
def State.withOsize (s : State) (n : Nat) : State := s.setPacker (s.packer.withOsize n)

/-- An outcome with its next state changed. -/
def mapNext (f : State → State) : Host.Outcome State Fault Refusal → Host.Outcome State Fault Refusal
  | .next t => .next (f t)
  | .fault e => .fault e
  | .refused e => .refused e

/-- The step goes on: it answers a next state, no fault and no refusal. -/
def SafeStep (s : State) : Prop := ∃ t, step s = .next t

end Sys2Proof.Machine
end

