-- ==== Sys2Proof/Certificates/Slice0/Obligations.lean ====
section
/-! DEFINITION. The statements for the provers. Each says what a numbered rule of spec/ says the block, a command or its
encoding does, for every legal configuration: the configuration is a field of the state. -/

open Sys2Proof Sys2Proof.Machine

/-! ### Configuration and reset -/

/-- R9, R112: a parameter set gives a block exactly when it is legal. -/
def Obligations.IllegalParametersGiveNoBlock : Prop :=
  ∀ capBytes wSeq nSeq : Nat,
    ((∃ c, Config.elaborate capBytes wSeq nSeq = some c) ↔
      1 ≤ wSeq ∧ wSeq ≤ 255 ∧ divUp wSeq 8 ≤ capBytes ∧ nSeq = 16) ∧
    ∀ c, Config.elaborate capBytes wSeq nSeq = some c → c.capBytes = capBytes ∧ c.wSeq = wSeq

/-- R37: what every piece of state holds right after reset, for every legal configuration; State.reset is that of the
hardware, whose W_SEQ is 255. -/
def Obligations.ResetValues : Prop :=
  (State.reset = State.resetOf Config.hardware ∧ Config.hardware.wSeq = 255) ∧
  ∀ c : Config,
    (∀ r : Reg, ((State.resetOf c).seq r).len = 0 ∧ ∀ i < c.wSeq, ((State.resetOf c).seq r).getBit i = some false) ∧
    (∀ a < c.capBytes, (State.resetOf c).packer.P.read a = 0) ∧
    (∀ k < c.ocapBytes, (State.resetOf c).packer.O.read k = 0) ∧
    (State.resetOf c).packer.byteIdx = 0 ∧ (State.resetOf c).packer.bitIdx = 0 ∧
    (State.resetOf c).packer.ovf = false ∧ (State.resetOf c).packer.osize = 0 ∧ (State.resetOf c).cfg = c ∧
    (State.resetOf c).packer.empty = true ∧
    exec .pkHasOvf (State.resetOf c) = .next ((State.resetOf c).respond 0 [])

/-- R113, R38: PK_APPEND right after reset packs nothing, whichever register it names. -/
def Obligations.AppendRightAfterResetPacksNothing : Prop :=
  ∀ (c : Config) (x : Reg), exec (.pkAppend x) (State.resetOf c) = .next ((State.resetOf c).respond 0 [])

/-- R109: a reset event gives every piece of the block its reset value and leaves the configuration (the host gets no
response, R115); and there is no reset command: for each word there is a good state that it does not reset. -/
def Obligations.ResetEventResetsTheBlock : Prop :=
  (∀ (s : State) (rest : List HostEvent), s.inbox = .reset :: rest →
    ∃ t, step s = .next t ∧ t.block = (State.resetOf s.cfg).block ∧ t.cfg = s.cfg ∧ t.inbox = rest ∧
      t.responses = s.responses) ∧
  ∀ (c : Config) (w : Word), ∃ s t, s.cfg = c ∧ Inv s ∧ issue w s = .next t ∧ t.block ≠ (State.resetOf c).block

/-- R110: a reset that arrives during a command takes effect before it (not performed, no response) or after it (performed),
never part-way; which of the two is a free value, so the statement holds whichever it is. That a command performed before
the reset still gives its response is the model's reading of R66 (log 6). -/
def Obligations.ResetDuringCommandIsBeforeOrAfter : Prop :=
  ∀ (s : State) (w : Word) (rest : List HostEvent), Inv s → s.inbox = .commandDuringReset w :: rest →
    ∃ t, step s = .next t ∧ t.block = (State.resetOf s.cfg).block ∧ t.cfg = s.cfg ∧ t.inbox = rest ∧
      (t.responses = s.responses ∨
        ∃ u, step { s with inbox := .command w :: rest } = .next u ∧ t.responses = u.responses)

/-! ### Encoding -/

/-- A step performs the decoded command at the next position of the stream, rejects a word that decodes to none, and holds
the state where the host issues nothing (R16, R64, R93, R108). -/
def Obligations.StepPerformsTheDecodedCommand : Prop :=
  (∀ (s : State) (w : Word) (rest : List HostEvent) (i : Instr), s.inbox = .command w :: rest → decodeWord w = .ok i →
    step s = exec i { s with inbox := rest, pos := s.pos + 1 }) ∧
  (∀ (s : State) (w : Word) (rest : List HostEvent) (e : DecodeError), s.inbox = .command w :: rest →
    decodeWord w = .error e →
    step s = .next { s with inbox := rest, pos := s.pos + 1, responses := s.responses ++ [⟨.illegal, 0, []⟩] }) ∧
  ∀ s : State, s.inbox = [] → step s = .next s

/-- R25: the position starts at 0 and goes up by exactly 1 for each command, performed or rejected; no command changes what
the host issues next. -/
def Obligations.PositionGoesUpByOne : Prop :=
  State.reset.pos = 0 ∧
  ∀ (s t : State) (w : Word) (rest : List HostEvent), s.inbox = .command w :: rest → step s = .next t →
    t.pos = s.pos + 1 ∧ t.inbox = rest

/-- Words written out from R59, R60 and R63 decode to the commands they stand for. -/
def Obligations.WordsOfTheOpcodeMapDecode : Prop :=
  decodeWord 0b0001_1111_00000000 = .ok (.sqClear 15) ∧ decodeWord 0b0010_1111_00000001 = .ok (.sqAppend 15 true) ∧
  decodeWord 0b0011_0000_11111110 = .ok (.sqGet 0 254) ∧ decodeWord 0b0100_1010_00000000 = .ok (.sqLen 10) ∧
  decodeWord 0b0101_1010_00000101 = .ok (.sqClone 10 5) ∧ decodeWord 0b1000_1111_00000000 = .ok (.pkAppend 15) ∧
  decodeWord 0b1001_0000_00000000 = .ok .pkHasOvf ∧ decodeWord 0b1010_0000_00000000 = .ok .pkDrainF ∧
  decodeWord 0b1011_0000_00000000 = .ok .pkDrainP ∧ decodeWord 0b1100_0000_00000000 = .ok .pkIsEmpty ∧
  decodeWord 0 = .error .reservedOp ∧ decodeWord 0b0101_1010_00010101 = .error .mustBeZero

/-- R69: the word of each form. -/
def Obligations.EncodingOfEachForm : Prop :=
  (∀ d : Reg, (encode (.sqClear d)).toNat = 0x1000 ||| (d.val <<< 8)) ∧
  (∀ (d : Reg) (b : Bool), (encode (.sqAppend d b)).toNat = 0x2000 ||| (d.val <<< 8) ||| b.toNat) ∧
  (∀ (d : Reg) (i : BitVec 8), (encode (.sqGet d i)).toNat = 0x3000 ||| (d.val <<< 8) ||| i.toNat) ∧
  (∀ d : Reg, (encode (.sqLen d)).toNat = 0x4000 ||| (d.val <<< 8)) ∧
  (∀ d src : Reg, (encode (.sqClone d src)).toNat = 0x5000 ||| (d.val <<< 8) ||| src.val) ∧
  (∀ src : Reg, (encode (.pkAppend src)).toNat = 0x8000 ||| (src.val <<< 8)) ∧
  (encode .pkHasOvf).toNat = 0x9000 ∧ (encode .pkDrainF).toNat = 0xA000 ∧ (encode .pkDrainP).toNat = 0xB000 ∧
  (encode .pkIsEmpty).toNat = 0xC000

/-- Decode and encode agree, both ways, for every command with every operand: no bit of a word is dropped. -/
def Obligations.DecodeEncodeRoundTrip : Prop :=
  (∀ i : Instr, i.wellFormed = true ∧ decodeWord (encode i) = .ok i) ∧
  ∀ (w : Word) (i : Instr), decodeWord w = .ok i → encode i = w

/-- R64: a word is a command exactly when it matches a row, no two rows overlap, the command is the row's; and the number of
valid words of each OP (one row has each OP), in all 4436 of the 16 * 4096 words, the other 61100 being ILLEGAL. -/
def Obligations.DecodingIsTotalAndUnambiguous : Prop :=
  (∀ w : Word, (∃ i, decodeWord w = .ok i) ↔ ∃ r ∈ opcodeMap, r.hits w = true) ∧
  (∀ w : Word, (opcodeMap.filter fun r => r.hits w).length ≤ 1) ∧
  (∀ (w : Word) (i : Instr), decodeWord w = .ok i →
    (opcodeMap.filter fun r => r.hits w).map Row.mnemonic = [i.mnemonic]) ∧
  (List.range 16).map (fun op => (List.range 4096).countP fun k => (decodeTableWord 16 (4096 * op + k)).isSome) =
    [0, 16, 32, 4096, 16, 256, 0, 0, 16, 1, 1, 1, 1, 0, 0, 0] ∧
  ((List.range 16).map fun op =>
    (List.range 4096).countP fun k => (decodeTableWord 16 (4096 * op + k)).isSome).sum = 4436 ∧
  ((List.range 16).map fun op =>
    (List.range 4096).countP fun k => (decodeTableWord 16 (4096 * op + k)).isNone).sum = 61100

/-- R62, R65, R93: the illegal words are those of a reserved OP and those with a must-be-zero field that is not zero; each is
rejected with ILLEGAL in every state, and changes nothing of the block. -/
def Obligations.ReservedAndMalformedWordsAreIllegal : Prop :=
  (∀ w : Word, decodeWord w = .error .reservedOp ↔ w.toNat / 4096 ∈ [0x0, 0x6, 0x7, 0xD, 0xE, 0xF]) ∧
  (∀ w : Word, decodeWord w = .error .mustBeZero ↔
    (w.toNat / 4096 ∈ [0x1, 0x4, 0x8] ∧ w.toNat % 256 ≠ 0) ∨
    (w.toNat / 4096 = 0x2 ∧ w.toNat % 256 / 2 ≠ 0) ∨
    (w.toNat / 4096 = 0x5 ∧ w.toNat % 256 / 16 ≠ 0) ∨
    (w.toNat / 4096 ∈ [0x9, 0xA, 0xB, 0xC] ∧ w.toNat % 4096 ≠ 0)) ∧
  ∀ (s : State) (w : Word) (e : DecodeError), decodeWord w = .error e →
    ∃ t, issue w s = .next t ∧ t.block = s.block ∧ t.cfg = s.cfg ∧ t.responses = s.responses ++ [⟨.illegal, 0, []⟩]

/-! ### The sequence unit's commands -/

/-- R74. -/
def Obligations.SqClearMakesTheEmptySequence : Prop :=
  (∀ (s : State) (d : Reg),
    exec (.sqClear d) s = .next ((s.setSeq d ⟨0, List.replicate s.cfg.wSeq false⟩).respond 0 [])) ∧
  (∀ d : Reg, decodeWord (BitVec.ofNat 16 (0x1000 + 256 * d.val)) = .ok (.sqClear d)) ∧
  ∀ (d : Reg) (imm : Nat), 0 < imm → imm < 256 →
    decodeWord (BitVec.ofNat 16 (0x1000 + 256 * d.val + imm)) = .error .mustBeZero

/-- R75: the bit goes to position len, the length goes up by 1, every other cell stays; at len = W_SEQ the command is
rejected with SEQ_FULL. -/
def Obligations.SqAppendAppendsOneBit : Prop :=
  (∀ (s : State) (d : Reg) (b : Bool), (s.seq d).Ok s.cfg →
    ((s.seq d).len = s.cfg.wSeq → exec (.sqAppend d b) s = .next (s.reject .seqFull)) ∧
    ((s.seq d).len ≠ s.cfg.wSeq →
      ∃ q, exec (.sqAppend d b) s = .next ((s.setSeq d q).respond 0 []) ∧ q.len = (s.seq d).len + 1 ∧
        q.getBit (s.seq d).len = some b ∧ (∀ i, i ≠ (s.seq d).len → q.getBit i = (s.seq d).getBit i) ∧
        q.value = (s.seq d).value ++ [b])) ∧
  (∀ (d : Reg) (b : Bool), decodeWord (BitVec.ofNat 16 (0x2000 + 256 * d.val + b.toNat)) = .ok (.sqAppend d b)) ∧
  ∀ (d : Reg) (imm : Nat), 2 ≤ imm → imm < 256 →
    decodeWord (BitVec.ofNat 16 (0x2000 + 256 * d.val + imm)) = .error .mustBeZero

/-- R76: bit i of the register in `val`, no state written; INDEX_OUT_OF_RANGE at i >= len, so always at i = 255. -/
def Obligations.SqGetReturnsTheBit : Prop :=
  (∀ (s : State) (d : Reg) (i : BitVec 8), (s.seq d).Ok s.cfg →
    (i.toNat < (s.seq d).len →
      ∃ b, (s.seq d).getBit i.toNat = some b ∧ (s.seq d).value[i.toNat]? = some b ∧
        exec (.sqGet d i) s = .next (s.respond (BitVec.ofNat 8 b.toNat) [])) ∧
    ((s.seq d).len ≤ i.toNat → exec (.sqGet d i) s = .next (s.reject .indexOutOfRange)) ∧
    exec (.sqGet d 255) s = .next (s.reject .indexOutOfRange)) ∧
  ∀ (d : Reg) (i : BitVec 8), decodeWord (BitVec.ofNat 16 (0x3000 + 256 * d.val + i.toNat)) = .ok (.sqGet d i)

/-- R77: the length in `val`, which it always fits, no state written. -/
def Obligations.SqLenReturnsTheLength : Prop :=
  (∀ (s : State) (d : Reg), exec (.sqLen d) s = .next (s.respond (BitVec.ofNat 8 (s.seq d).len) []) ∧
    ((s.seq d).Ok s.cfg → (BitVec.ofNat 8 (s.seq d).len).toNat = (s.seq d).len)) ∧
  (∀ d : Reg, decodeWord (BitVec.ofNat 16 (0x4000 + 256 * d.val)) = .ok (.sqLen d)) ∧
  ∀ (d : Reg) (imm : Nat), 0 < imm → imm < 256 →
    decodeWord (BitVec.ofNat 16 (0x4000 + 256 * d.val + imm)) = .error .mustBeZero

/-- R78: the whole register is copied, the source is unchanged, the same register is left as it was, and a later write to
either of two registers does not change the other. -/
def Obligations.SqCloneCopiesTheRegister : Prop :=
  (∀ (s : State) (d src : Reg),
    ∃ t, exec (.sqClone d src) s = .next t ∧ t = (s.setSeq d (s.seq src)).respond 0 [] ∧ t.seq d = s.seq src ∧
      t.seq src = s.seq src ∧ (d = src → t.seqs = s.seqs) ∧
      ∀ q, d ≠ src → (t.setSeq d q).seq src = s.seq src ∧ (t.setSeq src q).seq d = s.seq src) ∧
  (∀ d src : Reg, decodeWord (BitVec.ofNat 16 (0x5000 + 256 * d.val + src.val)) = .ok (.sqClone d src)) ∧
  ∀ (d : Reg) (imm : Nat), 16 ≤ imm → imm < 256 →
    decodeWord (BitVec.ofNat 16 (0x5000 + 256 * d.val + imm)) = .error .mustBeZero

/-- The frame of the five SQ commands: the packer with every byte of its buffers, the configuration, the command stream and
every register but the one `RA` names are unchanged; SQ_GET and SQ_LEN change no register; one response. -/
def Obligations.SqFrame : Prop :=
  ∀ (i : Instr) (s t : State), isSq i = true → exec i s = .next t →
    (∀ r : Reg, writesReg i r = false → t.seq r = s.seq r) ∧
    t.packer = s.packer ∧ (∀ a, t.packer.logicalByte t.cfg a = s.packer.logicalByte s.cfg a) ∧
    t.cfg = s.cfg ∧ t.inbox = s.inbox ∧ t.pos = s.pos ∧ ∃ r, t.responses = s.responses ++ [r]

/-- R73: no SQ command reads or writes packer state, each changes at most the register named by RA, and each may be issued
in any packer state: with another packer the outcome is the same but for that packer. -/
def Obligations.SqCommandsIgnoreThePacker : Prop :=
  ∀ (i : Instr) (s : State), isSq i = true →
    (∀ p : Packer, exec i (s.setPacker p) = mapNext (fun t => t.setPacker p) (exec i s)) ∧
    ∀ t, exec i s = .next t →
      t.packer = s.packer ∧ ∃ d : Reg, (i = .sqClear d ∨ (∃ b, i = .sqAppend d b) ∨ (∃ k, i = .sqGet d k) ∨
        i = .sqLen d ∨ ∃ src, i = .sqClone d src) ∧ ∀ r, r ≠ d → t.seq r = s.seq r

/-! ### The packer unit's commands -/

/-- R81, the closed form of the loop: from a start cursor c and a length n, the bit at c + j becomes bits[j] and no other bit
changes, CUR becomes c + n, OVF is set exactly when c + n > PBITS, and OSIZE is the exact size. In overflow mode the
command is rejected whatever n is. -/
def Obligations.PkAppendPacksTheSequence : Prop :=
  (∀ (s : State) (x : Reg), Inv s →
    (s.packer.ovf = true → exec (.pkAppend x) s = .next (s.reject .overflowPending)) ∧
    (s.packer.ovf = false →
      ∃ p : Packer, exec (.pkAppend x) s = .next ((s.setPacker p).respond 0 []) ∧
        (∀ j < (s.seq x).len, some (p.logicalBit s.cfg (s.packer.cur + j)) = (s.seq x).getBit j) ∧
        (∀ L, ¬ (s.packer.cur ≤ L ∧ L < s.packer.cur + (s.seq x).len) →
          p.logicalBit s.cfg L = s.packer.logicalBit s.cfg L) ∧
        p.cur = s.packer.cur + (s.seq x).len ∧
        (p.ovf = true ↔ s.cfg.pbits < s.packer.cur + (s.seq x).len) ∧
        p.osize = (if p.ovf then divUp (s.packer.cur + (s.seq x).len - s.cfg.pbits) 8 else 0) ∧
        ((s.seq x).len = 0 → p = s.packer))) ∧
  (∀ x : Reg, decodeWord (BitVec.ofNat 16 (0x8000 + 256 * x.val)) = .ok (.pkAppend x)) ∧
  ∀ (x : Reg) (imm : Nat), 0 < imm → imm < 256 →
    decodeWord (BitVec.ofNat 16 (0x8000 + 256 * x.val + imm)) = .error .mustBeZero

/-- R82: OVF in `val`, no state written; any other word of its OP is ILLEGAL. -/
def Obligations.PkHasOvfReportsOverflow : Prop :=
  (∀ s : State, exec .pkHasOvf s = .next (s.respond (if s.packer.ovf then 1 else 0) [])) ∧
  decodeWord 0x9000 = .ok .pkHasOvf ∧
  ∀ f : Nat, 0 < f → f < 4096 → decodeWord (BitVec.ofNat 16 (0x9000 + f)) = .error .mustBeZero

/-- R83: the full primary buffer is returned, O's bits come to the start of an otherwise zero P, O and OSIZE are cleared,
overflow mode ends and the cursor stands after the carried bits, of which there is at least one; in normal mode the
command is rejected. -/
def Obligations.PkDrainFReturnsTheBufferAndCarries : Prop :=
  (∀ s : State, Inv s →
    (s.packer.ovf = false → exec .pkDrainF s = .next (s.reject .noOverflow)) ∧
    (s.packer.ovf = true →
      ∃ p : Packer,
        exec .pkDrainF s = .next ((s.setPacker p).respond 0 ((List.range s.cfg.capBytes).map s.packer.P.read)) ∧
        (∀ k, p.P.getBit k = if k < s.packer.cur - s.cfg.pbits then s.packer.O.getBit k else false) ∧
        (∀ a, p.P.read a = if a < s.packer.osize then s.packer.O.read a else 0) ∧
        p.O = [] ∧ p.osize = 0 ∧ p.ovf = false ∧ p.cur = s.packer.cur - s.cfg.pbits ∧ p.empty = false ∧
        1 ≤ p.cur ∧ p.cur ≤ s.cfg.wSeq ∧ s.cfg.wSeq ≤ 8 * s.cfg.ocapBytes ∧ 8 * s.cfg.ocapBytes ≤ s.cfg.pbits)) ∧
  decodeWord 0xA000 = .ok .pkDrainF ∧
  ∀ f : Nat, 0 < f → f < 4096 → decodeWord (BitVec.ofNat 16 (0xA000 + f)) = .error .mustBeZero

/-- R84: the ceil(CUR/8) bytes written so far are returned, the pad bits of the last being 0 in its low-order positions, and
the packer is empty; in overflow mode the command is rejected. -/
def Obligations.PkDrainPReturnsTheBytesWritten : Prop :=
  (∀ s : State, Inv s →
    (s.packer.ovf = true → exec .pkDrainP s = .next (s.reject .overflowPending)) ∧
    (s.packer.ovf = false →
      exec .pkDrainP s =
        .next ((s.setPacker { s.packer with P := [], byteIdx := 0, bitIdx := 0 }).respond 0
          ((List.range (divUp s.packer.cur 8)).map s.packer.P.read)) ∧
      divUp s.packer.cur 8 ≤ s.cfg.capBytes ∧
      (s.packer.cur % 8 ≠ 0 → ∀ j < 8 - s.packer.cur % 8, (s.packer.P.read (s.packer.cur / 8)).getLsbD j = false) ∧
      (s.packer.cur = 0 → { s.packer with P := [], byteIdx := 0, bitIdx := 0 } = s.packer))) ∧
  decodeWord 0xB000 = .ok .pkDrainP ∧
  ∀ f : Nat, 0 < f → f < 4096 → decodeWord (BitVec.ofNat 16 (0xB000 + f)) = .error .mustBeZero

/-- R85: whether CUR = 0 in `val`, no state written; any other word of its OP is ILLEGAL. -/
def Obligations.PkIsEmptyReportsEmpty : Prop :=
  (∀ s : State, exec .pkIsEmpty s = .next (s.respond (if s.packer.cur = 0 then 1 else 0) []) ∧
    (Inv s → s.packer.ovf = true → exec .pkIsEmpty s = .next (s.respond 0 []))) ∧
  decodeWord 0xC000 = .ok .pkIsEmpty ∧
  ∀ f : Nat, 0 < f → f < 4096 → decodeWord (BitVec.ofNat 16 (0xC000 + f)) = .error .mustBeZero

/-- The frame of the five PK commands: every register, the configuration and the command stream are unchanged; the queries
change nothing of the packer; PK_APPEND changes no byte outside the bytes its bits go to, `CUR div 8` up to
`ceil((CUR+n)/8)`; PK_DRAINP changes O, OVF and OSIZE in nothing. -/
def Obligations.PkFrame : Prop :=
  ∀ (i : Instr) (s t : State), isSq i = false → Inv s → exec i s = .next t →
    t.seqs = s.seqs ∧ t.cfg = s.cfg ∧ t.inbox = s.inbox ∧ t.pos = s.pos ∧ (∃ r, t.responses = s.responses ++ [r]) ∧
    (isQuery i = true → t.packer = s.packer) ∧
    (∀ x, i = .pkAppend x → ∀ a, a < s.packer.cur / 8 ∨ divUp (s.packer.cur + (s.seq x).len) 8 ≤ a →
      t.packer.logicalByte t.cfg a = s.packer.logicalByte s.cfg a) ∧
    (i = .pkDrainP → t.packer.O = s.packer.O ∧ t.packer.ovf = s.packer.ovf ∧ t.packer.osize = s.packer.osize)

/-! ### Responses and rejection -/

/-- R92: every command has one response, and one whose status is not OK has `val = 0` and no data and leaves the state
exactly as it was. -/
def Obligations.RejectionChangesNothing : Prop :=
  ∀ (s t : State) (w : Word), issue w s = .next t →
    ∃ r, t.responses = s.responses ++ [r] ∧
      (r.status ≠ .ok → r.val = 0 ∧ r.data = [] ∧ t = { s with pos := s.pos + 1, responses := s.responses ++ [⟨r.status, 0, []⟩] })

/-- R91, R98: the codes, and the one status of every word in every good state: decode first, then the one state check of the
command. -/
def Obligations.StatusOfEveryCommand : Prop :=
  (Status.code .ok = 0 ∧ Status.code .illegal = 1 ∧ Status.code .indexOutOfRange = 2 ∧ Status.code .seqFull = 3 ∧
    Status.code .overflowPending = 4 ∧ Status.code .noOverflow = 5 ∧ ∀ st : Status, st.code.toNat < 6) ∧
  ∀ (s : State) (w : Word), Inv s → ∃ t r, issue w s = .next t ∧ t.responses = s.responses ++ [r] ∧
    r.status =
      match decodeWord w with
      | .error _ => .illegal
      | .ok (.sqAppend d _) => if (s.seq d).len = s.cfg.wSeq then .seqFull else .ok
      | .ok (.sqGet d i) => if (s.seq d).len ≤ i.toNat then .indexOutOfRange else .ok
      | .ok (.pkAppend _) => if s.packer.ovf then .overflowPending else .ok
      | .ok .pkDrainP => if s.packer.ovf then .overflowPending else .ok
      | .ok .pkDrainF => if s.packer.ovf then .ok else .noOverflow
      | .ok _ => .ok

/-- R66: what each command puts into its one response, of at most CAP_BYTES data bytes. -/
def Obligations.ResponseOfEveryCommand : Prop :=
  ∀ (i : Instr) (s t : State), Inv s → exec i s = .next t →
    ∃ r, t.responses = s.responses ++ [r] ∧ r.data.length ≤ s.cfg.capBytes ∧
      (r.status ≠ .ok → r.val = 0 ∧ r.data = []) ∧
      (r.status = .ok →
        match i with
        | .sqGet d k => (∃ b : Bool, (s.seq d).getBit k.toNat = some b ∧ r.val.toNat = b.toNat) ∧ r.data = []
        | .sqLen d => r.val.toNat = (s.seq d).len ∧ r.data = []
        | .pkHasOvf => r.val.toNat = s.packer.ovf.toNat ∧ r.data = []
        | .pkIsEmpty => r.val.toNat = s.packer.empty.toNat ∧ r.data = []
        | .pkDrainF => r.val = 0 ∧ r.data.length = s.cfg.capBytes
        | .pkDrainP => r.val = 0 ∧ r.data.length = divUp s.packer.cur 8
        | _ => r.val = 0 ∧ r.data = [])

/-- R117: in overflow mode the only packer command that changes state is PK_DRAINF; PK_APPEND and PK_DRAINP are rejected
with OVERFLOW_PENDING; the SQ commands, PK_HASOVF and PK_ISEMPTY are not. -/
def Obligations.DrainBeforeAppend : Prop :=
  ∀ (i : Instr) (s : State), Inv s → s.packer.ovf = true →
    ∃ t r, exec i s = .next t ∧ t.responses = s.responses ++ [r] ∧
      (isSq i = false → t.block ≠ s.block → i = .pkDrainF) ∧
      (r.status = .overflowPending ↔ (∃ x, i = .pkAppend x) ∨ i = .pkDrainP) ∧
      (i = .pkDrainF → r.status = .ok ∧ t.packer.ovf = false)

/-! ### Which state a command reads, and what the host can see -/

/-- R23: a command's outcome depends on no register but those it reads, and it writes no register but the one it writes. -/
def Obligations.RegistersReadAndWritten : Prop :=
  ∀ (i : Instr) (s t : State) (v : Vector BitSeq 16), (∀ r, readsReg i r = true → v.get r = s.seq r) →
    exec i s = .next t →
    (∀ r, writesReg i r = false → t.seq r = s.seq r) ∧
    ∃ t', exec i { s with seqs := v } = .next t' ∧ t'.packer = t.packer ∧ t'.responses = t.responses ∧
      (∀ r, writesReg i r = true → t'.seq r = t.seq r) ∧ ∀ r, writesReg i r = false → t'.seq r = v.get r

/-- R29, R35: no command reads OSIZE: two states that differ in nothing else have the same responses, and their next states
differ in nothing else. -/
def Obligations.OsizeIsNotObservable : Prop :=
  ∀ (i : Instr) (s : State) (n : Nat),
    mapNext (fun t => t.withOsize 0) (exec i (s.withOsize n)) = mapNext (fun t => t.withOsize 0) (exec i s)

/-- R24: no command can observe a bit at or beyond len: states that differ only there have the same responses, and their next
states differ only there. -/
def Obligations.BitsBeyondTheLengthAreNotObservable : Prop :=
  ∀ (i : Instr) (s s' t : State), SameValues s s' → exec i s = .next t →
    ∃ t', exec i s' = .next t' ∧ SameValues t t'

/-- R51: a second PK_DRAINP returns zero bytes and a second PK_DRAINF is rejected with NO_OVERFLOW; the queries change
nothing of the block, and answer the same again. -/
def Obligations.DrainsAreDestructiveAndQueriesAreNot : Prop :=
  (∀ s : State, Inv s → s.packer.ovf = false →
    ∃ t data, issueAll [encode .pkDrainP, encode .pkDrainP] s = some t ∧
      t.responses = s.responses ++ [⟨.ok, 0, data⟩, ⟨.ok, 0, []⟩]) ∧
  (∀ s : State, Inv s → s.packer.ovf = true →
    ∃ t data, issueAll [encode .pkDrainF, encode .pkDrainF] s = some t ∧
      t.responses = s.responses ++ [⟨.ok, 0, data⟩, ⟨.noOverflow, 0, []⟩]) ∧
  ∀ (i : Instr) (s : State), Inv s → isQuery i = true →
    ∃ t r, issueAll [encode i, encode i] s = some t ∧ t.block = s.block ∧ t.responses = s.responses ++ [r, r]

/-! ### Flags and the address space -/

/-- R26: OVF is set only by a PK_APPEND that must write a bit at CUR = PBITS, and cleared only by PK_DRAINF and by reset. -/
def Obligations.OvfIsSetAndClearedOnlySo : Prop :=
  ∀ s t : State, Inv s → step s = .next t →
    (s.packer.ovf = false → t.packer.ovf = true →
      ∃ w rest x, s.inbox = .command w :: rest ∧ decodeWord w = .ok (.pkAppend x) ∧
        s.cfg.pbits < s.packer.cur + (s.seq x).len) ∧
    (s.packer.ovf = true → t.packer.ovf = false →
      (∃ w rest, s.inbox = .command w :: rest ∧ decodeWord w = .ok .pkDrainF) ∨
      (∃ rest, s.inbox = .reset :: rest) ∨ ∃ w rest, s.inbox = .commandDuringReset w :: rest)

/-- R27: EMPTY is CUR = 0, PK_ISEMPTY reads it, and in overflow mode it is 0. -/
def Obligations.EmptyIsCursorZero : Prop :=
  ∀ s : State, (s.packer.empty = true ↔ s.packer.cur = 0) ∧
    exec .pkIsEmpty s = .next (s.respond (BitVec.ofNat 8 s.packer.empty.toNat) []) ∧
    (Inv s → s.packer.ovf = true → s.cfg.pbits < s.packer.cur ∧ 0 < s.cfg.pbits ∧ s.packer.empty = false)

/-- R42, R43: where the bit at a logical address stands in the two buffers, and that writing it leaves every other bit of
both as it was. -/
def Obligations.LogicalBitAddressing : Prop :=
  (∀ (p : Packer) (c : Config) (L : Nat), L < c.pbits → p.getP c L = some ((p.P.read (L / 8)).getLsbD (7 - L % 8))) ∧
  (∀ (p : Packer) (c : Config) (L : Nat), c.pbits ≤ L → L < c.pbits + 8 * c.ocapBytes →
    p.getO c L = some ((p.O.read ((L - c.pbits) / 8)).getLsbD (7 - (L - c.pbits) % 8))) ∧
  (∀ (p : Packer) (c : Config) (L : Nat) (b : Bool), p.BuffersOk c → L < c.pbits →
    ∃ q, p.putP c L b = some q ∧ q.O = p.O ∧ q.cur = p.cur ∧ q.ovf = p.ovf ∧ q.osize = p.osize ∧ q.BuffersOk c ∧
      ∀ M, q.P.getBit M = if M = L then b else p.P.getBit M) ∧
  ∀ (p : Packer) (c : Config) (L : Nat) (b : Bool), p.BuffersOk c → c.pbits ≤ L → L < c.pbits + 8 * c.ocapBytes →
    ∃ q, p.putO c L b = some q ∧ q.P = p.P ∧ q.cur = p.cur ∧ q.ovf = p.ovf ∧ q.osize = p.osize ∧ q.BuffersOk c ∧
      ∀ M, q.O.getBit M = if M = L - c.pbits then b else p.O.getBit M

/-- R28, R39: in every good state each field fits the width the storage bound counts for it. -/
def Obligations.StateFitsTheStorageBound : Prop :=
  ∀ s : State, Inv s →
    s.packer.byteIdx ≤ s.cfg.capBytes + s.cfg.wSeq / 8 ∧ s.packer.byteIdx < 2 ^ s.cfg.byteIdxWidth ∧
    s.packer.osize ≤ s.cfg.ocapBytes ∧ s.packer.osize < 2 ^ s.cfg.osizeWidth ∧
    (∀ r : Reg, (s.seq r).len < 2 ^ 8 ∧ (s.seq r).bits.length = s.cfg.wSeq) ∧
    (∀ a, s.cfg.capBytes ≤ a → s.packer.P.read a = 0) ∧ ∀ k, s.cfg.ocapBytes ≤ k → s.packer.O.read k = 0

/-! ### Invariants and safety -/

/-- The invariants SEQZ, CURSOR and PADZ hold at the hardware's reset state. -/
def Obligations.ResetMeetsTheInvariants : Prop := Inv State.reset

/-- R31, R34: reset establishes CURSOR and PADZ, with SEQZ (R24), and every step from any state that meets them keeps
them. -/
def Obligations.EveryStepKeepsTheInvariants : Prop :=
  (∀ c : Config, Inv (State.resetOf c)) ∧ ∀ s t : State, Inv s → step s = .next t → Inv t

/-- No step from a state that meets the invariants stops: the block answers every word, and every event, with a next state
(R115, R122). -/
def Obligations.NoStepStops : Prop := ∀ s : State, Inv s → SafeStep s

/-! ### Laws of the packer -/

/-- The bits of a drain's data and the held bits: PK_APPEND adds the sequence after the held bits, PK_DRAINF's data are the
first PBITS held bits and the rest stay held, PK_DRAINP's data are the held bits with zero pad bits (R44, R45, R46). -/
def Obligations.DrainDataAreTheHeldBits : Prop :=
  ∀ s : State, Inv s →
    (s.packer.ovf = false → ∀ x, ∃ p : Packer, exec (.pkAppend x) s = .next ((s.setPacker p).respond 0 []) ∧
      p.heldBits s.cfg = s.packer.heldBits s.cfg ++ (s.seq x).value) ∧
    (s.packer.ovf = true → ∃ (p : Packer) (data : List Byte),
      exec .pkDrainF s = .next ((s.setPacker p).respond 0 data) ∧
      (bitsOfBytes data).length = s.cfg.pbits ∧ bitsOfBytes data ++ p.heldBits s.cfg = s.packer.heldBits s.cfg) ∧
    (s.packer.ovf = false → ∃ (p : Packer) (data : List Byte),
      exec .pkDrainP s = .next ((s.setPacker p).respond 0 data) ∧
      bitsOfBytes data = padBits (s.packer.heldBits s.cfg) ∧ p.heldBits s.cfg = [])

/-- R86: after every list of commands, the bits appended are the bits drained and then the bits held; from reset, with empty
records, and from any good state whose records agree. A rejected command changes none of the three. -/
def Obligations.ConservationOfBits : Prop :=
  (∀ (ws : List Word) (s : State) (rec : Records), Inv s → rec.appended = rec.drained ++ s.packer.heldBits s.cfg →
    ∃ t rec', recordAll ws s rec = some (t, rec') ∧ rec'.appended = rec'.drained ++ t.packer.heldBits t.cfg) ∧
  (∀ (ws : List Word) (c : Config), ∃ t rec, recordAll ws (State.resetOf c) ⟨[], []⟩ = some (t, rec) ∧
    rec.appended = rec.drained ++ t.packer.heldBits t.cfg) ∧
  ∀ (s t : State) (w : Word) (rec : Records), issue w s = .next t → t.lastResponse.status ≠ .ok →
    rec.note s w t.lastResponse = rec ∧ t.packer.heldBits t.cfg = s.packer.heldBits s.cfg

/-- R87: under the Encoder protocol, from any good state with an empty packer, no command is rejected and the bytes of all
drains are the codewords' bits, zero-padded to bytes, whatever the capacity. -/
def Obligations.EncoderOutputIsThePackedStream : Prop :=
  ∀ (s : State) (qs : List (Reg × List Bool)), Inv s → s.packer.cur = 0 → (∀ xq ∈ qs, xq.2.length ≤ s.cfg.wSeq) →
    ∃ h rs, encodeStream qs s = some h ∧ bitsOfBytes h.output = padBits (qs.flatMap Prod.snd) ∧
      h.state.responses = s.responses ++ rs ∧ ∀ r ∈ rs, r.status = .ok

/-- R89: under the Encoder protocol, how many PK_DRAINF there are and how many bytes the closing PK_DRAINP returns, for N
bits in all. -/
def Obligations.OverflowFrequency : Prop :=
  ∀ (s : State) (qs : List (Reg × List Bool)) (h : Stream), Inv s → s.packer.cur = 0 →
    (∀ xq ∈ qs, xq.2.length ≤ s.cfg.wSeq) → encodeStream qs s = some h →
    ((qs.flatMap Prod.snd).length % s.cfg.pbits ≠ 0 →
      h.drains = (qs.flatMap Prod.snd).length / s.cfg.pbits ∧
      h.state.lastResponse.data.length = divUp ((qs.flatMap Prod.snd).length % s.cfg.pbits) 8) ∧
    ((qs.flatMap Prod.snd).length % s.cfg.pbits = 0 → 0 < (qs.flatMap Prod.snd).length →
      h.drains = (qs.flatMap Prod.snd).length / s.cfg.pbits - 1 ∧
      h.state.lastResponse.data.length = s.cfg.capBytes) ∧
    ((qs.flatMap Prod.snd).length = 0 → h.drains = 0 ∧ h.state.lastResponse.data = [])

/-- R88: every PK_DRAINF returns exactly CAP_BYTES bytes, every PK_DRAINP at most CAP_BYTES, and the packer holds at most
PBITS + W_SEQ bits. -/
def Obligations.OutputAndHeldBitsAreBounded : Prop :=
  ∀ s : State, Inv s →
    (s.packer.heldBits s.cfg).length ≤ s.cfg.pbits + s.cfg.wSeq ∧
    (∀ t, s.packer.ovf = true → exec .pkDrainF s = .next t → t.lastResponse.data.length = s.cfg.capBytes) ∧
    ∀ t, exec .pkDrainP s = .next t → t.lastResponse.data.length ≤ s.cfg.capBytes

/-- R118: a PK_APPEND rejected in overflow mode loses no data: after the drain the host reissues it, and the block is as if
it had drained first. -/
def Obligations.RejectedAppendCanBeReissued : Prop :=
  ∀ (s : State) (x : Reg), Inv s → s.packer.ovf = true →
    ∃ t u, issueAll [encode (.pkAppend x), encode .pkDrainF, encode (.pkAppend x)] s = some t ∧
      issueAll [encode .pkDrainF, encode (.pkAppend x)] s = some u ∧ t.block = u.block ∧
      ∃ data, t.responses = s.responses ++ [⟨.overflowPending, 0, []⟩, ⟨.ok, 0, data⟩, ⟨.ok, 0, []⟩]

/-! ### Assembler -/

/-- R71: SQ_FORK is SQ_CLONE and SQ_APPEND: `S[d] = S[s] ++ "b"`, S[s] unchanged; for d = s a plain append; at W_SEQ the
append is rejected and S[d] is left a copy of S[s]. -/
def Obligations.ForkIsCloneThenAppend : Prop :=
  ∀ (s : State) (d src : Reg) (b : Bool), Inv s →
    ∃ ws t, Stmt.assemble (.sqFork d.val src.val b.toNat) = some ws ∧
      ws.map BitVec.toNat = [0x5000 ||| (d.val <<< 8) ||| src.val, 0x2000 ||| (d.val <<< 8) ||| b.toNat] ∧
      issueAll ws s = some t ∧ (d ≠ src → t.seq src = s.seq src) ∧
      ((s.seq src).len < s.cfg.wSeq →
        (t.seq d).value = (s.seq src).value ++ [b] ∧ t.responses = s.responses ++ [⟨.ok, 0, []⟩, ⟨.ok, 0, []⟩]) ∧
      ((s.seq src).len = s.cfg.wSeq →
        t.seq d = s.seq src ∧ t.responses = s.responses ++ [⟨.ok, 0, []⟩, ⟨.seqFull, 0, []⟩]) ∧
      (d = src → ∃ u, issueAll [encode (.sqAppend d b)] s = some u ∧ t.block = u.block)

/-- R70: disassembly is the inverse of the encoding on every valid word, and an ILLEGAL word is shown as `.word`, which
assembles to it again. -/
def Obligations.DisassemblyInvertsAssembly : Prop :=
  (∀ i : Instr, disassemble (encode i) = i.toStmt) ∧
  (∀ (w : Word) (e : DecodeError), decodeWord w = .error e → disassemble w = .word w.toNat) ∧
  ∀ w : Word, (disassemble w).assemble = some [w]

/-- R68, R72: for each of the twelve forms, the operands an assembler accepts (a register S0 to S15, a bit 0 or 1, a position 0
to 255, a raw word of 16 bits) and the words it then gives, every other operand being refused; it is the ill-formed
statements that are refused; and no form but `.word` gives a word that decodes to ILLEGAL. -/
def Obligations.AssemblerGivesOnlyCommands : Prop :=
  ((∀ d : Nat, Stmt.assemble (.sqClear d) = if d < 16 then some [BitVec.ofNat 16 (0x1000 + 256 * d)] else none) ∧
    (∀ d b : Nat, Stmt.assemble (.sqAppend d b) =
      if d < 16 ∧ b < 2 then some [BitVec.ofNat 16 (0x2000 + 256 * d + b)] else none) ∧
    (∀ d i : Nat, Stmt.assemble (.sqGet d i) =
      if d < 16 ∧ i < 256 then some [BitVec.ofNat 16 (0x3000 + 256 * d + i)] else none) ∧
    (∀ d : Nat, Stmt.assemble (.sqLen d) = if d < 16 then some [BitVec.ofNat 16 (0x4000 + 256 * d)] else none) ∧
    (∀ d src : Nat, Stmt.assemble (.sqClone d src) =
      if d < 16 ∧ src < 16 then some [BitVec.ofNat 16 (0x5000 + 256 * d + src)] else none) ∧
    (∀ src : Nat, Stmt.assemble (.pkAppend src) =
      if src < 16 then some [BitVec.ofNat 16 (0x8000 + 256 * src)] else none) ∧
    Stmt.assemble .pkHasOvf = some [0x9000] ∧ Stmt.assemble .pkDrainF = some [0xA000] ∧
    Stmt.assemble .pkDrainP = some [0xB000] ∧ Stmt.assemble .pkIsEmpty = some [0xC000] ∧
    (∀ d src b : Nat, Stmt.assemble (.sqFork d src b) =
      if d < 16 ∧ src < 16 ∧ b < 2 then
        some [BitVec.ofNat 16 (0x5000 + 256 * d + src), BitVec.ofNat 16 (0x2000 + 256 * d + b)]
      else none) ∧
    ∀ w : Nat, Stmt.assemble (.word w) = if w < 65536 then some [BitVec.ofNat 16 w] else none) ∧
  (∀ t : Stmt, t.assemble = none ↔ t.wellFormed = false) ∧
  ∀ (t : Stmt) (ws : List Word), t.assemble = some ws → (∀ w, t ≠ .word w) → ∀ w ∈ ws, ∃ i, decodeWord w = .ok i

/-! ### A register that has not been written -/

/-- R113, last sentence, with R38: after every list of words from reset none of which writes the register, the register is
still the empty sequence and PK_APPEND of it packs nothing: in normal mode it succeeds and changes nothing but the
responses; in overflow mode it is rejected like any PK_APPEND (R81). -/
def Obligations.UnwrittenRegisterPacksNothing : Prop :=
  ∀ (c : Config) (ws : List Word) (x : Reg),
    (∀ w ∈ ws, ∀ i, decodeWord w = .ok i → writesReg i x = false) →
    ∃ t, issueAll ws (State.resetOf c) = some t ∧ t.seq x = ⟨0, List.replicate c.wSeq false⟩ ∧
      (t.packer.ovf = false → exec (.pkAppend x) t = .next (t.respond 0 [])) ∧
      (t.packer.ovf = true → exec (.pkAppend x) t = .next (t.reject .overflowPending))
end

