-- ==== Sys2Proof/Laws/Decode.lean ====
section
/-! SUPPORT. The decoder as a function of the numbers in a word's fields: one lemma, so that no proof reasons about masks
again. -/

namespace Sys2Proof

/-- The decoder on the fields `OP`, `RA`, `IMM8` as numbers: what R60, R62, R63 and R65 say of them. -/
def decodeFields (op ra imm : Nat) : Except DecodeError Instr :=
  match op with
  | 1 => if imm = 0 then .ok (.sqClear (Fin.ofNat 16 ra)) else .error .mustBeZero
  | 2 => if imm < 2 then .ok (.sqAppend (Fin.ofNat 16 ra) (decide (imm = 1))) else .error .mustBeZero
  | 3 => .ok (.sqGet (Fin.ofNat 16 ra) (BitVec.ofNat 8 imm))
  | 4 => if imm = 0 then .ok (.sqLen (Fin.ofNat 16 ra)) else .error .mustBeZero
  | 5 => if imm < 16 then .ok (.sqClone (Fin.ofNat 16 ra) (Fin.ofNat 16 imm)) else .error .mustBeZero
  | 8 => if imm = 0 then .ok (.pkAppend (Fin.ofNat 16 ra)) else .error .mustBeZero
  | 9 => if ra = 0 ∧ imm = 0 then .ok .pkHasOvf else .error .mustBeZero
  | 10 => if ra = 0 ∧ imm = 0 then .ok .pkDrainF else .error .mustBeZero
  | 11 => if ra = 0 ∧ imm = 0 then .ok .pkDrainP else .error .mustBeZero
  | 12 => if ra = 0 ∧ imm = 0 then .ok .pkIsEmpty else .error .mustBeZero
  | _ => .error .reservedOp

/-- AND of two numbers cut at the same bit. -/
theorem land_split (i hi lo hi' lo' : Nat) (h : lo < 2 ^ i) (h' : lo' < 2 ^ i) :
    (2 ^ i * hi + lo) &&& (2 ^ i * hi' + lo') = 2 ^ i * (hi &&& hi') + (lo &&& lo') := by
  apply Nat.eq_of_testBit_eq
  intro j
  have hl : lo &&& lo' < 2 ^ i := Nat.and_lt_two_pow _ h'
  rw [Nat.testBit_and, Nat.testBit_two_pow_mul_add _ h, Nat.testBit_two_pow_mul_add _ h',
    Nat.testBit_two_pow_mul_add _ hl]
  split <;> simp

/-- A word's fields against a mask's fields. -/
theorem and_eq_fields {w : Word} {a b c : Nat} (hw : w.toNat = 4096 * a + 256 * b + c) (hb : b < 16) (hc : c < 256)
    (x y z p q r : Nat) (hx : 4096 * x + 256 * y + z < 65536) (hy : y < 16) (hz : z < 256)
    (hp : 4096 * p + 256 * q + r < 65536) (hq : q < 16) (hr : r < 256) :
    w &&& BitVec.ofNat 16 (4096 * x + 256 * y + z) = BitVec.ofNat 16 (4096 * p + 256 * q + r) ↔
      a &&& x = p ∧ b &&& y = q ∧ c &&& z = r := by
  rw [← BitVec.toNat_inj, BitVec.toNat_and, BitVec.toNat_ofNat, BitVec.toNat_ofNat, Nat.mod_eq_of_lt hx,
    Nat.mod_eq_of_lt hp, hw]
  have h1 : 4096 * a + 256 * b + c &&& 4096 * x + 256 * y + z = 4096 * (a &&& x) + (256 * b + c &&& 256 * y + z) := by
    have := land_split 12 a (256 * b + c) x (256 * y + z) (by omega) (by omega)
    simpa only [Nat.add_assoc, Nat.reducePow] using this
  have h2 : 256 * b + c &&& 256 * y + z = 256 * (b &&& y) + (c &&& z) := by
    simpa only [Nat.reducePow] using land_split 8 b c y z (by omega) (by omega)
  have hby : b &&& y < 16 := Nat.lt_of_le_of_lt Nat.and_le_left hb
  have hcz : c &&& z < 256 := Nat.lt_of_le_of_lt Nat.and_le_left hc
  rw [h1, h2]
  omega

theorem and_15 {a : Nat} (h : a < 16) : a &&& 15 = a := by
  rw [show (15 : Nat) = 2 ^ 4 - 1 by rfl, Nat.and_two_pow_sub_one_eq_mod]; omega

theorem and_255 {a : Nat} (h : a < 256) : a &&& 255 = a := by
  rw [show (255 : Nat) = 2 ^ 8 - 1 by rfl, Nat.and_two_pow_sub_one_eq_mod]; omega

theorem and_254 {a : Nat} (h : a < 256) : a &&& 254 = 2 * (a / 2) := by
  have h1 := land_split 1 (a / 2) (a % 2) 127 0 (by omega) (by omega)
  have h2 : a / 2 &&& 127 = a / 2 := by
    rw [show (127 : Nat) = 2 ^ 7 - 1 by rfl, Nat.and_two_pow_sub_one_eq_mod]; omega
  rw [h2, Nat.and_zero] at h1
  have h3 : 2 ^ 1 * (a / 2) + a % 2 = a := by omega
  rw [h3] at h1
  simpa using h1

theorem and_240 {a : Nat} (h : a < 256) : a &&& 240 = 16 * (a / 16) := by
  have h1 := land_split 4 (a / 16) (a % 16) 15 0 (by omega) (by omega)
  rw [and_15 (by omega), Nat.and_zero] at h1
  have h3 : 2 ^ 4 * (a / 16) + a % 16 = a := by omega
  rw [h3] at h1
  simpa using h1

theorem raField_eq (w : Word) : raField w = Fin.ofNat 16 (w.toNat / 256 % 16) := by
  apply Fin.ext
  simp [raField, Nat.shiftRight_eq_div_pow]

theorem rbField_eq (w : Word) : rbField w = Fin.ofNat 16 (w.toNat % 256) := by
  apply Fin.ext
  simp [rbField]

theorem imm8Field_eq (w : Word) : imm8Field w = BitVec.ofNat 8 (w.toNat % 256) := by
  apply BitVec.eq_of_toNat_eq
  simp [imm8Field, BitVec.extractLsb'_toNat]

theorem bField_eq (w : Word) (h : w.toNat % 256 < 2) : bField w = decide (w.toNat % 256 = 1) := by
  simp only [bField, BitVec.getLsbD, Nat.testBit_zero]
  by_cases h1 : w.toNat % 256 = 1 <;> simp [h1] <;> omega

theorem reservedOp_eq (w : Word) :
    reservedOp (opField w) = decide (w.toNat / 4096 ∈ [0x0, 0x6, 0x7, 0xD, 0xE, 0xF]) := by
  have h : (opField w).toNat = w.toNat / 4096 := by
    have := w.isLt
    simp [opField, BitVec.extractLsb'_toNat, Nat.shiftRight_eq_div_pow]
    omega
  have hb : ∀ k : BitVec 4, (opField w == k) = decide (w.toNat / 4096 = k.toNat) := by
    intro k
    rw [← h]
    simp [BitVec.toNat_inj, beq_eq_decide]
  simp only [reservedOp, hb]
  simp [Bool.or_assoc]

/-- The decoder reads a word by its fields (R59, R60, R63). -/
theorem decodeWord_eq_fields (w : Word) :
    decodeWord w = decodeFields (w.toNat / 4096) (w.toNat / 256 % 16) (w.toNat % 256) := by
  have hlt := w.isLt
  generalize ha : w.toNat / 4096 = a
  generalize hb : w.toNat / 256 % 16 = b
  generalize hc : w.toNat % 256 = c
  have hw : w.toNat = 4096 * a + 256 * b + c := by omega
  have ha' : a < 16 := by omega
  have hb' : b < 16 := by omega
  have hc' : c < 256 := by omega
  have key := @and_eq_fields w a b c hw hb' hc'
  have m1 : ∀ p, p < 16 → (w &&& 0xF0FF = BitVec.ofNat 16 (4096 * p) ↔ a = p ∧ c = 0) := fun p hp => by
    have := key 15 0 255 p 0 0 (by omega) (by omega) (by omega) (by omega) (by omega) (by omega)
    simpa [and_15 ha', and_255 hc'] using this
  have m2 : w &&& 0xF0FE = 0x2000 ↔ a = 2 ∧ c < 2 := by
    have := key 15 0 254 2 0 0 (by omega) (by omega) (by omega) (by omega) (by omega) (by omega)
    rw [and_15 ha', and_254 hc', Nat.and_zero] at this
    exact this.trans (by omega)
  have m3 : w &&& 0xF000 = 0x3000 ↔ a = 3 := by
    have := key 15 0 0 3 0 0 (by omega) (by omega) (by omega) (by omega) (by omega) (by omega)
    rw [and_15 ha', Nat.and_zero, Nat.and_zero] at this
    exact this.trans (by omega)
  have m5 : w &&& 0xF0F0 = 0x5000 ↔ a = 5 ∧ c < 16 := by
    have := key 15 0 240 5 0 0 (by omega) (by omega) (by omega) (by omega) (by omega) (by omega)
    rw [and_15 ha', and_240 hc', Nat.and_zero] at this
    exact this.trans (by omega)
  have m9 : ∀ p, p < 16 → (w &&& 0xFFFF = BitVec.ofNat 16 (4096 * p) ↔ a = p ∧ b = 0 ∧ c = 0) := fun p hp => by
    have := key 15 15 255 p 0 0 (by omega) (by omega) (by omega) (by omega) (by omega) (by omega)
    simpa [and_15 ha', and_15 hb', and_255 hc'] using this
  unfold decodeWord
  rw [raField_eq, rbField_eq, imm8Field_eq, reservedOp_eq, ha, hb, hc]
  simp only [m2, m3, m5, show (w &&& 0xF0FF = 0x1000 ↔ a = 1 ∧ c = 0) from m1 1 (by omega),
    show (w &&& 0xF0FF = 0x4000 ↔ a = 4 ∧ c = 0) from m1 4 (by omega),
    show (w &&& 0xF0FF = 0x8000 ↔ a = 8 ∧ c = 0) from m1 8 (by omega),
    show (w &&& 0xFFFF = 0x9000 ↔ a = 9 ∧ b = 0 ∧ c = 0) from m9 9 (by omega),
    show (w &&& 0xFFFF = 0xA000 ↔ a = 10 ∧ b = 0 ∧ c = 0) from m9 10 (by omega),
    show (w &&& 0xFFFF = 0xB000 ↔ a = 11 ∧ b = 0 ∧ c = 0) from m9 11 (by omega),
    show (w &&& 0xFFFF = 0xC000 ↔ a = 12 ∧ b = 0 ∧ c = 0) from m9 12 (by omega)]
  have hbit : c < 2 → bField w = decide (c = 1) := fun h => by rw [bField_eq w (by omega), hc]
  interval_cases a <;> (simp [decodeFields]; try split) <;> simp_all

end Sys2Proof
end

