-- ==== Sys2Proof/Laws/Memory.lean ====
section
/-! SUPPORT. The basic laws of a buffer: a read after a write, the canonical form, and buffers equal where they read equal. -/

namespace Sys2Proof.Machine

namespace Memory

@[simp] theorem read_nil (a : Nat) : read [] a = 0 := rfl

/-- `wf` as the two facts it checks. -/
theorem wf_iff (m : Memory) :
    m.wf = true ↔ m.Pairwise (fun x y => x.1 < y.1) ∧ ∀ x ∈ m, x.2 ≠ 0 := by
  simp [wf]

@[simp] theorem wf_nil : wf [] = true := rfl

theorem wf_cons (x : Host.Cell) (t : Memory) :
    wf (x :: t) = true ↔ (∀ y ∈ t, x.1 < y.1) ∧ x.2 ≠ 0 ∧ t.wf = true := by
  simp only [wf_iff, List.pairwise_cons, List.mem_cons, forall_eq_or_imp]
  tauto

/-- Below every listed address a buffer reads 0x00. -/
theorem read_of_lt {m : Memory} {a : Nat} (h : ∀ x ∈ m, a < x.1) : m.read a = 0 := by
  induction m with
  | nil => rfl
  | cons x t ih =>
    obtain ⟨k, v⟩ := x
    have hk : a < k := h (k, v) (by simp)
    simp only [read, if_neg (show ¬ k = a by omega)]
    exact ih fun y hy => h y (by simp [hy])

/-- Outside the listed addresses a buffer reads 0x00. -/
theorem read_of_not_mem {m : Memory} {a : Nat} (h : ∀ x ∈ m, x.1 ≠ a) : m.read a = 0 := by
  induction m with
  | nil => rfl
  | cons x t ih =>
    obtain ⟨k, v⟩ := x
    simp only [read, if_neg (h (k, v) (by simp))]
    exact ih fun y hy => h y (by simp [hy])

theorem read_consCell (a : Nat) (b : Byte) (t : Memory) (x : Nat) (h : ∀ y ∈ t, a < y.1) :
    (consCell a b t).read x = if x = a then b else t.read x := by
  unfold consCell
  split
  · next hb =>
    split
    · next hx => rw [hx, read_of_lt h, hb]
    · rfl
  · simp only [read, eq_comm]

/-- A read after a write: the byte written at its address, every other address as before. -/
theorem read_write {m : Memory} (h : m.wf = true) (a : Nat) (b : Byte) (x : Nat) :
    (m.write a b).read x = if x = a then b else m.read x := by
  induction m with
  | nil => simp only [write]; exact read_consCell a b [] x (by simp)
  | cons c t ih =>
    obtain ⟨k, v⟩ := c
    obtain ⟨hlt, -, ht⟩ := (wf_cons _ _).1 h
    simp only [write]
    split
    · next hak =>
      exact read_consCell a b _ x (by
        intro y hy
        rcases List.mem_cons.1 hy with rfl | hy
        · exact hak
        · exact Nat.lt_trans hak (hlt y hy))
    · split
      · next hak =>
        subst hak
        rw [read_consCell a b t x hlt]
        simp only [read]
        split
        · rfl
        · next hx => rw [if_neg (fun e => hx e.symm)]
      · simp only [read, ih ht]
        split
        · next hkx => rw [if_neg (by omega)]
        · rfl

theorem mem_consCell {a : Nat} {b : Byte} {t : Memory} {x : Host.Cell} (h : x ∈ consCell a b t) : x = (a, b) ∨ x ∈ t := by
  unfold consCell at h
  split at h
  · exact .inr h
  · exact List.mem_cons.1 h

/-- A write lists the byte written and lists nothing else anew. -/
theorem mem_write {m : Memory} {a : Nat} {b : Byte} {x : Host.Cell} (h : x ∈ m.write a b) : x = (a, b) ∨ x ∈ m := by
  induction m with
  | nil => exact mem_consCell h
  | cons c t ih =>
    obtain ⟨k, v⟩ := c
    simp only [write] at h
    split at h
    · exact mem_consCell h
    · split at h
      · exact (mem_consCell h).imp_right fun h => List.mem_cons_of_mem _ h
      · rcases List.mem_cons.1 h with h | h
        · exact .inr (by simp [h])
        · exact (ih h).imp_right fun h => List.mem_cons_of_mem _ h

theorem wf_consCell {a : Nat} {b : Byte} {t : Memory} (h : ∀ y ∈ t, a < y.1) (ht : t.wf = true) :
    (consCell a b t).wf = true := by
  unfold consCell
  split
  · exact ht
  · next hb => exact (wf_cons _ _).2 ⟨h, hb, ht⟩

/-- A write keeps the canonical form. -/
theorem wf_write {m : Memory} (h : m.wf = true) (a : Nat) (b : Byte) : (m.write a b).wf = true := by
  induction m with
  | nil => exact wf_consCell (by simp) rfl
  | cons c t ih =>
    obtain ⟨k, v⟩ := c
    obtain ⟨hlt, hv, ht⟩ := (wf_cons _ _).1 h
    simp only [write]
    split
    · next hak =>
      exact wf_consCell (by
        intro y hy
        rcases List.mem_cons.1 hy with rfl | hy
        · exact hak
        · exact Nat.lt_trans hak (hlt y hy)) h
    · split
      · next hak => exact wf_consCell (hak ▸ hlt) ht
      · refine (wf_cons _ _).2 ⟨?_, hv, ih ht⟩
        intro y hy
        rcases mem_write hy with rfl | hy
        · dsimp only; omega
        · exact hlt y hy

/-- A write inside a buffer lists only addresses inside it. -/
theorem inside_write {m : Memory} {size a : Nat} (b : Byte) (h : ∀ x ∈ m, x.1 < size) (ha : a < size) :
    ∀ x ∈ m.write a b, x.1 < size := by
  intro x hx
  rcases mem_write hx with rfl | hx
  · exact ha
  · exact h x hx

/-- `MemWrite` keeps the canonical form. -/
theorem wf_writeBytes {m : Memory} {size : Nat} {bs : List Byte} {a : Nat} {m' : Memory} (h : m.wf = true)
    (hw : m.writeBytes size a bs = some m') : m'.wf = true := by
  induction bs generalizing m a with
  | nil => simp only [writeBytes, Option.some.injEq] at hw; exact hw ▸ h
  | cons b rest ih =>
    simp only [writeBytes] at hw
    split at hw
    · exact ih (wf_write h a b) hw
    · cases hw

/-- Canonical buffers that read equal everywhere are equal. -/
theorem ext {m n : Memory} (hm : m.wf = true) (hn : n.wf = true) (h : ∀ a, m.read a = n.read a) : m = n := by
  induction m generalizing n with
  | nil =>
    cases n with
    | nil => rfl
    | cons y u =>
      obtain ⟨k, v⟩ := y
      have := h k
      simp only [read] at this
      exact absurd this.symm ((wf_cons _ _).1 hn).2.1
  | cons x t ih =>
    obtain ⟨k, v⟩ := x
    obtain ⟨hlt, hv, ht⟩ := (wf_cons _ _).1 hm
    cases n with
    | nil =>
      have := h k
      simp only [read] at this
      exact absurd this hv
    | cons y u =>
      obtain ⟨l, w⟩ := y
      obtain ⟨hlt', hw, hu⟩ := (wf_cons _ _).1 hn
      dsimp only at hlt hlt' hv hw
      have hkl : k = l := by
        by_contra hne
        rcases Nat.lt_or_gt_of_ne hne with hl | hl
        · have := h k
          simp only [read, if_pos, if_neg (show ¬ l = k by omega)] at this
          rw [read_of_lt fun y hy => Nat.lt_trans hl (hlt' y hy)] at this
          exact hv this
        · have := h l
          simp only [read, if_pos, if_neg (show ¬ k = l by omega)] at this
          rw [read_of_lt fun y hy => Nat.lt_trans hl (hlt y hy)] at this
          exact hw this.symm
      subst hkl
      have hvw : v = w := by have := h k; simpa only [read, if_pos] using this
      subst hvw
      congr 1
      refine ih ht hu fun a => ?_
      by_cases ha : k = a
      · subst ha; rw [read_of_lt hlt, read_of_lt hlt']
      · have := h a
        simpa only [read, if_neg ha] using this

end Memory

/-! ### Bits of a byte and of a buffer -/

theorem getLsbD_setBit (x : Byte) (k : Nat) (hk : k < 8) (v : Bool) (j : Nat) (hj : j < 8) :
    (setBit x k v).getLsbD j = if j = k then v else x.getLsbD j := by
  unfold setBit
  cases v
  · simp only [Bool.false_eq_true, if_false, BitVec.getLsbD_and, BitVec.getLsbD_not, BitVec.getLsbD_shiftLeft,
      BitVec.getLsbD_one]
    by_cases h : j = k
    · simp [h, hk]
    · rcases Nat.lt_or_gt_of_ne h with h' | h'
      · simp [h, hj, h']
      · simp [h, hj, show ¬ j < k by omega, show ¬ j - k = 0 by omega]
  · simp only [if_true, BitVec.getLsbD_or, BitVec.getLsbD_shiftLeft, BitVec.getLsbD_one]
    by_cases h : j = k
    · simp [h, hk]
    · rcases Nat.lt_or_gt_of_ne h with h' | h'
      · simp [h, h']
      · simp [h, show ¬ j < k by omega, show ¬ j - k = 0 by omega]

namespace Memory

@[simp] theorem getBit_nil (i : Nat) : getBit [] i = false := by simp [getBit]

/-- A bit read after a bit written: the bit at its place, every other bit as before (R42). -/
theorem getBit_putBit {m : Memory} (h : m.wf = true) (i : Nat) (v : Bool) (j : Nat) :
    (m.putBit i v).getBit j = if j = i then v else m.getBit j := by
  unfold getBit putBit
  rw [read_write h]
  by_cases hb : j / 8 = i / 8
  · rw [if_pos hb, getLsbD_setBit _ _ (by omega) _ _ (by omega), hb]
    by_cases hji : j = i
    · subst hji; simp
    · rw [if_neg (by omega), if_neg hji]
  · rw [if_neg hb, if_neg (by rintro rfl; exact hb rfl)]

theorem wf_putBit {m : Memory} (h : m.wf = true) (i : Nat) (v : Bool) : (m.putBit i v).wf = true := wf_write h _ _

theorem inside_putBit {m : Memory} {size i : Nat} (v : Bool) (h : ∀ x ∈ m, x.1 < size) (hi : i < 8 * size) :
    ∀ x ∈ m.putBit i v, x.1 < size := inside_write _ h (by omega)

/-- Buffers with the same bits have the same bytes. -/
theorem read_eq_of_getBit {m n : Memory} {a : Nat} (h : ∀ i, 8 * a ≤ i → i < 8 * a + 8 → m.getBit i = n.getBit i) :
    m.read a = n.read a := by
  apply BitVec.eq_of_getLsbD_eq
  intro j hj
  have := h (8 * a + (7 - j)) (by omega) (by omega)
  simp only [getBit] at this
  rwa [show (8 * a + (7 - j)) / 8 = a by omega, show 7 - (8 * a + (7 - j)) % 8 = j by omega] at this

/-- `MemRead` of a buffer from its start. -/
theorem readBytes_zero {m : Memory} {size n : Nat} (h : n ≤ size) :
    m.readBytes size 0 n = some ((List.range n).map m.read) := by
  simp [readBytes, h]

end Memory

end Sys2Proof.Machine
end

