-- ==== Sys2Proof/Laws/State.lean ====
section
/-! SUPPORT. One lemma for each field and each update of State and Packer, so that no proof unfolds a record update. -/

namespace Sys2Proof.Machine

/-! ### respond and reject -/

section
variable (s : State) (v : Byte) (d : List Byte) (st : Status)
@[simp] theorem respond_cfg : (s.respond v d).cfg = s.cfg := rfl
@[simp] theorem respond_seqs : (s.respond v d).seqs = s.seqs := rfl
@[simp] theorem respond_seq (r : Reg) : (s.respond v d).seq r = s.seq r := rfl
@[simp] theorem respond_packer : (s.respond v d).packer = s.packer := rfl
@[simp] theorem respond_inbox : (s.respond v d).inbox = s.inbox := rfl
@[simp] theorem respond_pos : (s.respond v d).pos = s.pos := rfl
@[simp] theorem respond_responses : (s.respond v d).responses = s.responses ++ [⟨.ok, v, d⟩] := rfl
@[simp] theorem reject_cfg : (s.reject st).cfg = s.cfg := rfl
@[simp] theorem reject_seqs : (s.reject st).seqs = s.seqs := rfl
@[simp] theorem reject_seq (r : Reg) : (s.reject st).seq r = s.seq r := rfl
@[simp] theorem reject_packer : (s.reject st).packer = s.packer := rfl
@[simp] theorem reject_inbox : (s.reject st).inbox = s.inbox := rfl
@[simp] theorem reject_pos : (s.reject st).pos = s.pos := rfl
@[simp] theorem reject_responses : (s.reject st).responses = s.responses ++ [⟨st, 0, []⟩] := rfl
@[simp] theorem respond_block : (s.respond v d).block = s.block := rfl
@[simp] theorem reject_block : (s.reject st).block = s.block := rfl
end

/-! ### Sequence registers -/

section
variable (s : State) (r : Reg) (q : BitSeq)
@[simp] theorem setSeq_cfg : (s.setSeq r q).cfg = s.cfg := rfl
@[simp] theorem setSeq_packer : (s.setSeq r q).packer = s.packer := rfl
@[simp] theorem setSeq_inbox : (s.setSeq r q).inbox = s.inbox := rfl
@[simp] theorem setSeq_pos : (s.setSeq r q).pos = s.pos := rfl
@[simp] theorem setSeq_responses : (s.setSeq r q).responses = s.responses := rfl

theorem seq_setSeq (r' : Reg) : (s.setSeq r q).seq r' = if r' = r then q else s.seq r' := by
  simp only [State.seq, State.setSeq, Vector.get_eq_getElem, Vector.getElem_set, Fin.ext_iff, eq_comm]

@[simp] theorem seq_setSeq_same : (s.setSeq r q).seq r = q := by simp [seq_setSeq]

theorem seq_setSeq_other {r' : Reg} (h : r' ≠ r) : (s.setSeq r q).seq r' = s.seq r' := by simp [seq_setSeq, h]
end

/-! ### The packer replaced in a state -/

section
variable (s : State) (p : Packer)
@[simp] theorem setPacker_cfg : (s.setPacker p).cfg = s.cfg := rfl
@[simp] theorem setPacker_seqs : (s.setPacker p).seqs = s.seqs := rfl
@[simp] theorem setPacker_seq (r : Reg) : (s.setPacker p).seq r = s.seq r := rfl
@[simp] theorem setPacker_packer : (s.setPacker p).packer = p := rfl
@[simp] theorem setPacker_inbox : (s.setPacker p).inbox = s.inbox := rfl
@[simp] theorem setPacker_pos : (s.setPacker p).pos = s.pos := rfl
@[simp] theorem setPacker_responses : (s.setPacker p).responses = s.responses := rfl
end

/-! ### The host's events -/

section
variable (s : State) (w : Word)
@[simp] theorem takeEvent_cfg : s.takeEvent.cfg = s.cfg := rfl
@[simp] theorem takeEvent_seq (r : Reg) : s.takeEvent.seq r = s.seq r := rfl
@[simp] theorem takeEvent_packer : s.takeEvent.packer = s.packer := rfl
@[simp] theorem takeEvent_inbox : s.takeEvent.inbox = s.inbox.tail := rfl
@[simp] theorem takeEvent_pos : s.takeEvent.pos = s.pos := rfl
@[simp] theorem takeEvent_responses : s.takeEvent.responses = s.responses := rfl
@[simp] theorem takeEvent_block : s.takeEvent.block = s.block := rfl
@[simp] theorem advance_cfg : s.advance.cfg = s.cfg := rfl
@[simp] theorem advance_seq (r : Reg) : s.advance.seq r = s.seq r := rfl
@[simp] theorem advance_packer : s.advance.packer = s.packer := rfl
@[simp] theorem advance_inbox : s.advance.inbox = s.inbox := rfl
@[simp] theorem advance_pos : s.advance.pos = s.pos + 1 := rfl
@[simp] theorem advance_responses : s.advance.responses = s.responses := rfl
@[simp] theorem advance_block : s.advance.block = s.block := rfl
@[simp] theorem present_cfg : (s.present w).cfg = s.cfg := rfl
@[simp] theorem present_seq (r : Reg) : (s.present w).seq r = s.seq r := rfl
@[simp] theorem present_packer : (s.present w).packer = s.packer := rfl
@[simp] theorem present_inbox : (s.present w).inbox = .command w :: s.inbox := rfl
@[simp] theorem present_pos : (s.present w).pos = s.pos := rfl
@[simp] theorem present_responses : (s.present w).responses = s.responses := rfl
@[simp] theorem present_takeEvent : (s.present w).takeEvent = s := rfl
@[simp] theorem applyReset_cfg : s.applyReset.cfg = s.cfg := rfl
@[simp] theorem applyReset_packer : s.applyReset.packer = Packer.reset := rfl
@[simp] theorem applyReset_inbox : s.applyReset.inbox = s.inbox := rfl
@[simp] theorem applyReset_pos : s.applyReset.pos = s.pos := rfl
@[simp] theorem applyReset_responses : s.applyReset.responses = s.responses := rfl
@[simp] theorem resetOf_seq (c : Config) (r : Reg) : (State.resetOf c).seq r = BitSeq.empty c.wSeq := by
  simp [State.seq, State.resetOf, Vector.get_eq_getElem]
@[simp] theorem applyReset_seq (r : Reg) : s.applyReset.seq r = BitSeq.empty s.cfg.wSeq := resetOf_seq s.cfg r
end

/-! ### The packer's fields -/

section
variable (p : Packer) (x : Nat) (M : Memory)
@[simp] theorem cur_setCur : (p.setCur x).cur = x := by
  simp only [Packer.cur, Packer.setCur]; omega
@[simp] theorem setCur_P : (p.setCur x).P = p.P := rfl
@[simp] theorem setCur_O : (p.setCur x).O = p.O := rfl
@[simp] theorem setCur_ovf : (p.setCur x).ovf = p.ovf := rfl
@[simp] theorem setCur_osize : (p.setCur x).osize = p.osize := rfl
@[simp] theorem reset_cur : Packer.reset.cur = 0 := rfl
@[simp] theorem clearP_P : p.clearP.P = [] := rfl
@[simp] theorem clearP_O : p.clearP.O = p.O := rfl
@[simp] theorem clearP_cur : p.clearP.cur = p.cur := rfl
@[simp] theorem clearP_ovf : p.clearP.ovf = p.ovf := rfl
@[simp] theorem clearP_osize : p.clearP.osize = p.osize := rfl
@[simp] theorem endOverflow_P : p.endOverflow.P = p.P := rfl
@[simp] theorem endOverflow_O : p.endOverflow.O = [] := rfl
@[simp] theorem endOverflow_cur : p.endOverflow.cur = p.cur := rfl
@[simp] theorem endOverflow_ovf : p.endOverflow.ovf = false := rfl
@[simp] theorem endOverflow_osize : p.endOverflow.osize = 0 := rfl
@[simp] theorem cur_withP : Packer.cur { p with P := M } = p.cur := rfl
@[simp] theorem cur_withO : Packer.cur { p with O := M } = p.cur := rfl
@[simp] theorem enterOverflow_P : (p.enterOverflow x).P = p.P := by unfold Packer.enterOverflow; split <;> rfl
@[simp] theorem enterOverflow_O : (p.enterOverflow x).O = p.O := by unfold Packer.enterOverflow; split <;> rfl
@[simp] theorem enterOverflow_ovf : (p.enterOverflow x).ovf = true := by
  unfold Packer.enterOverflow; split <;> simp_all
theorem enterOverflow_osize : (p.enterOverflow x).osize = if p.ovf then p.osize else divUp x 8 := by
  unfold Packer.enterOverflow; split <;> simp_all
end

/-- A packer is its buffers, cursor, flag and allocation size: the cursor fixes both its fields. -/
theorem Packer.ext_cur {p q : Packer} (hP : p.P = q.P) (hO : p.O = q.O) (hc : p.cur = q.cur) (hv : p.ovf = q.ovf)
    (hs : p.osize = q.osize) : p = q := by
  obtain ⟨_, _, b, i, _, _⟩ := p
  obtain ⟨_, _, b', i', _, _⟩ := q
  simp only [Packer.cur] at hc hP hO hv hs
  have hb : b = b' := by omega
  have hi : i = i' := by apply Fin.ext; omega
  subst hP hO hv hs hb hi
  rfl

end Sys2Proof.Machine
end

