-- ==== Sys2Proof/Laws/Packing.lean ====
section
/-! SUPPORT. What the packing loop, the carrying loop and the drain read can do: each said once, for the commands' lemmas to
cite. -/

namespace Sys2Proof.Machine

open Memory

/-! ### Parameters -/

theorem le_divUp_mul (a : Nat) : a ≤ 8 * divUp a 8 := by unfold divUp; omega

theorem divUp_le_iff (a b : Nat) : divUp a 8 ≤ b ↔ a ≤ 8 * b := by unfold divUp; omega

theorem wSeq_le_overflow (c : Config) : c.wSeq ≤ 8 * c.ocapBytes := le_divUp_mul _

/-- Carried bits fit: `8*OCAP_BYTES <= PBITS` (R9, R83). -/
theorem overflow_le_pbits (c : Config) : 8 * c.ocapBytes ≤ c.pbits := Nat.mul_le_mul_left 8 c.cap_ge

theorem pbits_pos (c : Config) : 0 < c.pbits := by
  have h := c.cap_ge
  have h1 := c.wSeq_pos
  unfold Config.pbits
  unfold divUp at h
  omega

theorem ocapBytes_le_capBytes (c : Config) : c.ocapBytes ≤ c.capBytes := c.cap_ge

/-! ### Buffer bits inside a packer -/

section
variable (c : Config) (p : Packer)

theorem inOverflow_iff (L : Nat) : inOverflow c L = true ↔ c.pbits ≤ L ∧ L < c.pbits + 8 * c.ocapBytes := by
  simp [inOverflow]

theorem putP_some {L : Nat} (h : L < c.pbits) (b : Bool) : p.putP c L b = some { p with P := p.P.putBit L b } := by
  simp [Packer.putP, h]

theorem putO_some {L : Nat} (h : c.pbits ≤ L) (h' : L < c.pbits + 8 * c.ocapBytes) (b : Bool) :
    p.putO c L b = some { p with O := p.O.putBit (L - c.pbits) b } := by
  simp [Packer.putO, inOverflow, h, h']

theorem getO_some {L : Nat} (h : c.pbits ≤ L) (h' : L < c.pbits + 8 * c.ocapBytes) :
    p.getO c L = some (p.O.getBit (L - c.pbits)) := by
  simp [Packer.getO, inOverflow, h, h']

theorem getP_some {L : Nat} (h : L < c.pbits) : p.getP c L = some (p.P.getBit L) := by simp [Packer.getP, h]

theorem buffersOk_setCur {p : Packer} (h : p.BuffersOk c) (x : Nat) : (p.setCur x).BuffersOk c :=
  ⟨h.wfP, h.wfO, h.insideP, h.insideO⟩

theorem buffersOk_enterOverflow {p : Packer} (h : p.BuffersOk c) (x : Nat) : (p.enterOverflow x).BuffersOk c := by
  unfold Packer.enterOverflow
  split
  · exact h
  · exact ⟨h.wfP, h.wfO, h.insideP, h.insideO⟩

@[simp] theorem logicalBit_setCur (x L : Nat) : (p.setCur x).logicalBit c L = p.logicalBit c L := rfl

@[simp] theorem logicalBit_enterOverflow (x L : Nat) : (p.enterOverflow x).logicalBit c L = p.logicalBit c L := by
  simp [Packer.logicalBit]

@[simp] theorem cur_enterOverflow (x : Nat) : (p.enterOverflow x).cur = p.cur := by
  unfold Packer.enterOverflow; split <;> rfl

theorem buffersOk_putP {L : Nat} (h : p.BuffersOk c) (hL : L < c.pbits) (b : Bool) :
    Packer.BuffersOk c { p with P := p.P.putBit L b } :=
  ⟨wf_putBit h.wfP _ _, h.wfO, inside_putBit b h.insideP hL, h.insideO⟩

theorem buffersOk_putO {i : Nat} (h : p.BuffersOk c) (hi : i < 8 * c.ocapBytes) (b : Bool) :
    Packer.BuffersOk c { p with O := p.O.putBit i b } :=
  ⟨h.wfP, wf_putBit h.wfO _ _, h.insideP, inside_putBit b h.insideO hi⟩

theorem logicalBit_putP (h : p.BuffersOk c) {L : Nat} (hL : L < c.pbits) (b : Bool) (M : Nat) :
    Packer.logicalBit { p with P := p.P.putBit L b } c M = if M = L then b else p.logicalBit c M := by
  simp only [Packer.logicalBit]
  split
  · rw [getBit_putBit h.wfP]
  · rw [if_neg (by omega)]

theorem logicalBit_putO (h : p.BuffersOk c) {L : Nat} (hL : c.pbits ≤ L) (b : Bool) (M : Nat) :
    Packer.logicalBit { p with O := p.O.putBit (L - c.pbits) b } c M = if M = L then b else p.logicalBit c M := by
  simp only [Packer.logicalBit]
  split
  · rw [if_neg (by omega)]
  · rw [getBit_putBit h.wfO]
    by_cases hML : M = L
    · simp [hML]
    · rw [if_neg (by omega), if_neg hML]
end

/-! ### The loop of PK_APPEND -/

/-- What packing a list of bits gives, from a cursor in the right mode and with room in the logical space. -/
structure Packs (c : Config) (p : Packer) (bits : List Bool) (q : Packer) : Prop where
  buffers : q.BuffersOk c
  cur : q.cur = p.cur + bits.length
  ovf : q.ovf = (p.ovf || decide (c.pbits < p.cur + bits.length))
  osize : q.osize =
    if p.ovf = false ∧ c.pbits < p.cur + bits.length then divUp (p.cur + bits.length - c.pbits) 8 else p.osize
  bit : ∀ L, q.logicalBit c L =
    if p.cur ≤ L ∧ L < p.cur + bits.length then bits.getD (L - p.cur) false else p.logicalBit c L

/-- The packing loop is its closed form (R81). -/
theorem packBits_packs (c : Config) (bits : List Bool) (p : Packer) (hb : p.BuffersOk c)
    (hnormal : p.ovf = false → p.cur ≤ c.pbits) (hover : p.ovf = true → c.pbits ≤ p.cur)
    (hroom : p.cur + bits.length ≤ c.pbits + 8 * c.ocapBytes) :
    ∃ q, p.packBits c bits = some q ∧ Packs c p bits q := by
  induction bits generalizing p with
  | nil =>
    refine ⟨p, rfl, ⟨hb, rfl, ?_, ?_, ?_⟩⟩
    · cases hv : p.ovf
      · have := hnormal hv; simp; omega
      · simp
    · rw [if_neg]
      rintro ⟨hv, hlt⟩
      have := hnormal hv
      simp at hlt
      omega
    · intro L; rw [if_neg (by simp)]
  | cons b rest ih =>
    simp only [List.length_cons] at hroom
    by_cases hcur : p.cur < c.pbits
    · have hv : p.ovf = false := by
        cases hv : p.ovf
        · rfl
        · have := hover hv; omega
      have hb' := buffersOk_putP c p hb hcur b
      obtain ⟨q, hq, hp⟩ := ih (Packer.setCur { p with P := p.P.putBit p.cur b } (p.cur + 1))
        (buffersOk_setCur c hb' _) (by simp; omega) (by simp [hv]) (by simp; omega)
      refine ⟨q, ?_, ?_⟩
      · rw [Packer.packBits, if_pos hcur, putP_some c p hcur b]
        exact hq
      · have hcurq := hp.cur
        have hovfq := hp.ovf
        have hosq := hp.osize
        simp only [cur_setCur, setCur_ovf, setCur_osize] at hcurq hovfq hosq
        refine ⟨hp.buffers, ?_, ?_, ?_, ?_⟩
        · rw [hcurq, List.length_cons]; omega
        · rw [hovfq, List.length_cons, show p.cur + 1 + rest.length = p.cur + (rest.length + 1) by omega]
        · rw [hosq, List.length_cons, show p.cur + 1 + rest.length = p.cur + (rest.length + 1) by omega]
        · intro L
          rw [hp.bit L, cur_setCur, List.length_cons]
          rw [logicalBit_setCur, logicalBit_putP c p hb hcur b L]
          by_cases hL : L = p.cur
          · subst hL
            rw [if_neg (by omega), if_pos rfl, if_pos (by omega), Nat.sub_self]
            rfl
          · by_cases hin : p.cur ≤ L ∧ L < p.cur + (rest.length + 1)
            · rw [if_pos (by omega), if_pos hin, show L - p.cur = (L - (p.cur + 1)) + 1 by omega]
              rfl
            · rw [if_neg (by omega), if_neg hL, if_neg hin]
    · have hcur' : c.pbits ≤ p.cur := by omega
      have hbe := buffersOk_enterOverflow c hb (rest.length + 1)
      have hbo := buffersOk_putO c _ hbe (i := p.cur - c.pbits) (by omega) b
      obtain ⟨q, hq, hp⟩ := ih
        (Packer.setCur { p.enterOverflow (rest.length + 1) with
          O := (p.enterOverflow (rest.length + 1)).O.putBit (p.cur - c.pbits) b } (p.cur + 1))
        (buffersOk_setCur c hbo _) (by simp) (by simp; omega) (by simp; omega)
      refine ⟨q, ?_, ?_⟩
      · rw [Packer.packBits, if_neg hcur, putO_some c _ hcur' (by omega) b]
        exact hq
      · have hcurq := hp.cur
        have hovfq := hp.ovf
        have hosq := hp.osize
        simp only [cur_setCur, setCur_ovf, setCur_osize, enterOverflow_ovf, Bool.true_or, enterOverflow_osize,
          Bool.true_eq_false, false_and, if_false] at hcurq hovfq hosq
        refine ⟨hp.buffers, ?_, ?_, ?_, ?_⟩
        · rw [hcurq, List.length_cons]; omega
        · rw [hovfq, List.length_cons]; simp; right; omega
        · rw [hosq, List.length_cons]
          cases hv : p.ovf
          · have := hnormal hv
            rw [if_neg (by simp), if_pos ⟨rfl, by omega⟩, show p.cur + (rest.length + 1) - c.pbits = rest.length + 1 by omega]
          · simp
        · intro L
          rw [hp.bit L, cur_setCur, List.length_cons]
          rw [logicalBit_setCur, logicalBit_putO c _ hbe hcur' b L, logicalBit_enterOverflow]
          by_cases hL : L = p.cur
          · subst hL
            rw [if_neg (by omega), if_pos rfl, if_pos (by omega), Nat.sub_self]
            rfl
          · by_cases hin : p.cur ≤ L ∧ L < p.cur + (rest.length + 1)
            · rw [if_pos (by omega), if_pos hin, show L - p.cur = (L - (p.cur + 1)) + 1 by omega]
              rfl
            · rw [if_neg (by omega), if_neg hL, if_neg hin]

/-! ### The loop of PK_DRAINF -/

/-- The carrying loop writes bits `k .. k+n-1` of the primary buffer from the same bits of the source's overflow buffer, and
nothing else (R83). -/
theorem carryBits_spec (c : Config) (src : Packer) (n : Nat) (p : Packer) (k : Nat) (hb : p.BuffersOk c)
    (hroom : k + n ≤ 8 * c.ocapBytes) :
    ∃ q, p.carryBits src c k n = some q ∧ q.BuffersOk c ∧ q.O = p.O ∧ q.ovf = p.ovf ∧ q.osize = p.osize ∧
      q.cur = p.cur ∧ ∀ i, q.P.getBit i = if k ≤ i ∧ i < k + n then src.O.getBit i else p.P.getBit i := by
  induction n generalizing p k with
  | zero => exact ⟨p, rfl, hb, rfl, rfl, rfl, rfl, fun i => by rw [if_neg (by omega)]⟩
  | succ n ih =>
    have hk : k < c.pbits := by have := overflow_le_pbits c; omega
    obtain ⟨q, hq, hqb, hqO, hqv, hqs, hqc, hbit⟩ :=
      ih { p with P := p.P.putBit k (src.O.getBit k) } (k + 1) (buffersOk_putP c p hb hk _) (by omega)
    refine ⟨q, ?_, hqb, hqO, hqv, hqs, hqc, ?_⟩
    · rw [Packer.carryBits, getO_some c src (by omega) (by omega), Option.bind_some, putP_some c p hk,
        Option.bind_some, show c.pbits + k - c.pbits = k by omega]
      exact hq
    · intro i
      rw [hbit i]
      dsimp only
      rw [getBit_putBit hb.wfP]
      by_cases hi : i = k
      · subst hi; simp
      · by_cases hin : k ≤ i ∧ i < k + (n + 1)
        · rw [if_pos (by omega), if_pos hin]
        · rw [if_neg (by omega), if_neg hi, if_neg hin]

/-! ### The invariants through the loops -/

theorem logicalBit_primary (c : Config) (p : Packer) {L : Nat} (h : L < c.pbits) : p.logicalBit c L = p.P.getBit L := by
  simp [Packer.logicalBit, h]

theorem logicalBit_overflow (c : Config) (p : Packer) {L : Nat} (h : c.pbits ≤ L) :
    p.logicalBit c L = p.O.getBit (L - c.pbits) := by
  simp [Packer.logicalBit, Nat.not_lt.2 h]

/-- PADZ in one line: every bit of either buffer at or past the cursor is 0. -/
theorem padz_iff (c : Config) (p : Packer) :
    p.Padz c ↔ ∀ L, p.cur ≤ L → L < c.pbits + 8 * c.ocapBytes → p.logicalBit c L = false := by
  constructor
  · intro h L h1 h2
    by_cases hL : L < c.pbits
    · have := h.primary L (by omega) hL
      rw [getP_some c p hL] at this
      rw [logicalBit_primary c p hL]
      exact Option.some.inj this
    · have := h.overflow L (by omega) h2
      rw [getO_some c p (by omega) h2] at this
      rw [logicalBit_overflow c p (by omega)]
      exact Option.some.inj this
  · intro h
    refine ⟨fun L h1 h2 => ?_, fun L h1 h2 => ?_⟩
    · rw [getP_some c p h2, ← logicalBit_primary c p h2, h L (by omega) (by omega)]
    · rw [getO_some c p (by omega) h2, ← logicalBit_overflow c p (by omega), h L (by omega) h2]

/-- A packer in normal mode is packed into a good packer (R31, R34). -/
theorem Packs.ok {c : Config} {p : Packer} {bits : List Bool} {q : Packer} (h : Packs c p bits q) (hp : p.Ok c)
    (hv : p.ovf = false) (hn : bits.length ≤ c.wSeq) : q.Ok c := by
  obtain ⟨hcur, hos⟩ := hp.cursor.normal hv
  have hovf := h.ovf
  have hosize := h.osize
  have hc := h.cur
  rw [hv, Bool.false_or] at hovf
  refine ⟨⟨?_, ?_⟩, ?_, h.buffers⟩
  · intro hq
    rw [hq] at hovf
    have : ¬ c.pbits < p.cur + bits.length := by simpa using hovf.symm
    rw [if_neg (fun hh => this hh.2)] at hosize
    exact ⟨by omega, by omega⟩
  · intro hq
    rw [hq] at hovf
    have : c.pbits < p.cur + bits.length := by simpa using hovf.symm
    rw [if_pos ⟨hv, this⟩] at hosize
    exact ⟨by omega, by omega, by rw [hosize, hc]⟩
  · rw [padz_iff]
    intro L h1 h2
    rw [h.bit L, if_neg (by omega)]
    exact (padz_iff c p).1 hp.padz L (by omega) h2

/-- The packer after reset, and after a PK_DRAINP, meets its invariants. -/
theorem reset_ok (c : Config) : Packer.reset.Ok c := by
  refine ⟨⟨fun _ => ⟨Nat.zero_le _, rfl⟩, fun h => absurd h (by decide)⟩, ?_, ⟨rfl, rfl, by simp [Packer.reset],
    by simp [Packer.reset]⟩⟩
  rw [padz_iff]
  intro L _ _
  simp [Packer.logicalBit, Packer.reset]

/-- In normal mode the overflow buffer holds nothing (R34). -/
theorem overflow_nil {c : Config} {p : Packer} (h : p.Ok c) (hv : p.ovf = false) : p.O = [] := by
  apply Memory.ext h.buffers.wfO rfl
  intro a
  by_cases ha : a < c.ocapBytes
  · apply read_eq_of_getBit
    intro i h1 h2
    have hn := (h.cursor.normal hv).1
    have := (padz_iff c p).1 h.padz (c.pbits + i) (by omega) (by omega)
    rw [logicalBit_overflow c p (by omega), show c.pbits + i - c.pbits = i by omega] at this
    rw [this, getBit_nil]
  · rw [read_nil]
    exact read_of_not_mem fun x hx e => ha (e ▸ h.buffers.insideO x hx)

/-! ### Held bits -/

@[simp] theorem heldBits_length (p : Packer) (c : Config) : (p.heldBits c).length = p.cur := by simp [Packer.heldBits]

/-- Packing adds the bits after the held ones. -/
theorem Packs.heldBits {c : Config} {p : Packer} {bits : List Bool} {q : Packer} (h : Packs c p bits q) :
    q.heldBits c = p.heldBits c ++ bits := by
  apply List.ext_getElem
  · simp [h.cur]
  · intro i h1 h2
    simp only [heldBits_length, h.cur] at h1
    simp only [Packer.heldBits, List.getElem_map, List.getElem_range, List.getElem_append, List.length_map,
      List.length_range, h.bit i]
    by_cases hi : i < p.cur
    · rw [if_neg (by omega), dif_pos hi]
    · rw [if_pos (by omega), dif_neg hi]
      exact List.getD_eq_getElem _ _ (by omega)

end Sys2Proof.Machine
end

