-- ==== Sys2Proof/Laws/PerInstr.lean ====
section
/-! SUPPORT. The statements made for each command as syntax. OpcodeRow: the command's word hits exactly its own row of the
opcode map (spec/30_encoding.md R63, R64). -/

namespace Sys2Proof.Laws.OpcodeRow

/-- The rows that the command's word hits are one row, and it has the command's mnemonic. -/
def Statement (i : Instr) : Prop :=
  (opcodeMap.filter fun r => r.hits (encode i)).map Row.mnemonic = [i.mnemonic]

theorem sqClear (d : Reg) : Statement (.sqClear d) := by
  unfold Statement; revert d; decide +kernel

theorem sqAppend (d : Reg) (b : Bool) : Statement (.sqAppend d b) := by
  unfold Statement; revert d b; decide +kernel

theorem sqGet (d : Reg) (i : BitVec 8) : Statement (.sqGet d i) := by
  unfold Statement; revert d i; decide +kernel

theorem sqLen (d : Reg) : Statement (.sqLen d) := by
  unfold Statement; revert d; decide +kernel

theorem sqClone (d src : Reg) : Statement (.sqClone d src) := by
  unfold Statement; revert d src; decide +kernel

theorem pkAppend (src : Reg) : Statement (.pkAppend src) := by
  unfold Statement; revert src; decide +kernel

theorem pkHasOvf : Statement .pkHasOvf := by unfold Statement; decide

theorem pkDrainF : Statement .pkDrainF := by unfold Statement; decide

theorem pkDrainP : Statement .pkDrainP := by unfold Statement; decide

theorem pkIsEmpty : Statement .pkIsEmpty := by unfold Statement; decide

end Sys2Proof.Laws.OpcodeRow
end

