-- ==== Sys2Proof/Laws/Sequence.lean ====
section
/-! SUPPORT. What a sequence register's operations can do. -/

namespace Sys2Proof.Machine

namespace BitSeq

@[simp] theorem empty_len (w : Nat) : (empty w).len = 0 := rfl
@[simp] theorem empty_value (w : Nat) : (empty w).value = [] := rfl

theorem empty_ok (c : Config) : (empty c.wSeq).Ok c :=
  ⟨by simp [empty], Nat.zero_le _, fun i _ h => by simp [empty, getBit, h]⟩

/-- A legal register is read as its value (R21). -/
theorem read_ok {c : Config} {q : BitSeq} (h : q.Ok c) : q.read = some q.value := by
  have := h.len_le
  simp [read, h.cells, this]

theorem value_length {c : Config} {q : BitSeq} (h : q.Ok c) : q.value.length = q.len := by
  have := h.len_le
  simp [value, h.cells, this]

/-- A bit below the length is the value's bit (R41). -/
theorem getBit_of_lt {c : Config} {q : BitSeq} (h : q.Ok c) {i : Nat} (hi : i < q.len) :
    q.getBit i = some (q.value.getD i false) := by
  have h1 := h.len_le
  have h2 := h.cells
  simp [getBit, value, List.getD_eq_getElem?_getD, hi, List.getElem?_eq_getElem (by omega : i < q.bits.length)]

/-- Appending a bit below the bound gives the value and the bit, and keeps the register legal (R75). -/
theorem append_ok {c : Config} {q : BitSeq} (h : q.Ok c) (hlen : q.len < c.wSeq) (b : Bool) :
    ∃ q', q.append b = some q' ∧ q' = ⟨q.len + 1, q.bits.set q.len b⟩ ∧ q'.Ok c ∧ q'.value = q.value ++ [b] := by
  have hc := h.cells
  refine ⟨_, by rw [append, if_pos (by omega)], rfl, ⟨by simp [hc], by simp; omega, ?_⟩, ?_⟩
  · intro i h1 h2
    dsimp only at h1
    have := h.seqz i (by omega) h2
    simp only [getBit] at this ⊢
    rw [List.getElem?_set_ne (by omega), this]
  · simp only [value]
    rw [List.take_add_one, List.take_set_of_le (Nat.le_refl _), List.getElem?_set_self (by omega)]
    rfl

end BitSeq

end Sys2Proof.Machine
end

