-- ==== Sys2Proof/Laws/Step.lean ====
section
/-! SUPPORT. What a command and a step can do, said once: a command that answers a next state has either been rejected, with
nothing changed, or been performed with one response and only its register or the packer changed. -/

namespace Sys2Proof.Machine

theorem orNoSuchCell_next {o : Option State} {t : State} : orNoSuchCell o = .next t ↔ o = some t := by
  cases o <;> simp [orNoSuchCell]

/-- The next states a command can answer. -/
inductive Performed (i : Instr) (s t : State) : Prop where
  /-- Rejected: nothing changes but the responses (R92). -/
  | rejected (st : Status) (h : st ≠ .ok) (ht : t = s.reject st)
  /-- A register written by a command of the sequence unit. -/
  | register (d : Reg) (q : BitSeq) (hw : ∀ r, writesReg i r = (r == d)) (ht : t = (s.setSeq d q).respond 0 [])
  /-- Nothing written: a query. -/
  | query (v : Byte) (hq : isQuery i = true) (ht : t = s.respond v [])
  /-- The packer written by one of its three commands that change it. -/
  | packer (p : Packer) (data : List Byte) (hi : (∃ x, i = .pkAppend x) ∨ i = .pkDrainF ∨ i = .pkDrainP)
      (ht : t = (s.setPacker p).respond 0 data)

/-- Every next state of a command is one of these. -/
theorem exec_performed {i : Instr} {s t : State} (h : exec i s = .next t) : Performed i s t := by
  cases i with
  | sqClear d =>
    simp only [exec, execSqClear, Host.Outcome.next.injEq] at h
    exact .register d _ (fun _ => rfl) h.symm
  | sqAppend d b =>
    simp only [exec, execSqAppend] at h
    split at h
    · cases h; exact .rejected _ (by decide) rfl
    · rw [orNoSuchCell_next, Option.map_eq_some_iff] at h
      obtain ⟨q, -, h⟩ := h
      exact .register d q (fun _ => rfl) h.symm
  | sqGet d k =>
    simp only [exec, execSqGet] at h
    split at h
    · cases h; exact .rejected _ (by decide) rfl
    · rw [orNoSuchCell_next, Option.map_eq_some_iff] at h
      obtain ⟨b, -, h⟩ := h
      exact .query _ rfl h.symm
  | sqLen d =>
    simp only [exec, execSqLen, Host.Outcome.next.injEq] at h
    exact .query _ rfl h.symm
  | sqClone d src =>
    simp only [exec, execSqClone, Host.Outcome.next.injEq] at h
    exact .register d _ (fun _ => rfl) h.symm
  | pkAppend src =>
    simp only [exec, execPkAppend] at h
    split at h
    · cases h; exact .rejected _ (by decide) rfl
    · rw [orNoSuchCell_next, Option.bind_eq_some_iff] at h
      obtain ⟨bits, -, h⟩ := h
      rw [Option.map_eq_some_iff] at h
      obtain ⟨p, -, h⟩ := h
      exact .packer p [] (.inl ⟨src, rfl⟩) h.symm
  | pkHasOvf =>
    simp only [exec, execPkHasOvf, Host.Outcome.next.injEq] at h
    exact .query _ rfl h.symm
  | pkDrainF =>
    simp only [exec, execPkDrainF] at h
    split at h
    · rw [orNoSuchCell_next, Option.bind_eq_some_iff] at h
      obtain ⟨data, -, h⟩ := h
      rw [Option.map_eq_some_iff] at h
      obtain ⟨p, -, h⟩ := h
      exact .packer _ data (.inr (.inl rfl)) h.symm
    · cases h; exact .rejected _ (by decide) rfl
  | pkDrainP =>
    simp only [exec, execPkDrainP] at h
    split at h
    · cases h; exact .rejected _ (by decide) rfl
    · rw [orNoSuchCell_next, Option.map_eq_some_iff] at h
      obtain ⟨data, -, h⟩ := h
      exact .packer _ data (.inr (.inr rfl)) h.symm
  | pkIsEmpty =>
    simp only [exec, execPkIsEmpty, Host.Outcome.next.injEq] at h
    exact .query _ rfl h.symm

/-- No command is refused: every constructor has its meaning. -/
theorem exec_ne_refused (i : Instr) (s : State) (r : Refusal) : exec i s ≠ .refused r := by
  cases i <;>
    simp only [exec, execSqClear, execSqAppend, execSqGet, execSqLen, execSqClone, execPkAppend, execPkHasOvf,
      execPkDrainF, execPkDrainP, execPkIsEmpty, orNoSuchCell] <;>
    (repeat' split) <;> simp

/-- A word is performed as its command, or rejected as ILLEGAL. -/
theorem perform_cases (w : Word) (s : State) :
    (∃ i, decodeWord w = .ok i ∧ perform w s = exec i s) ∨
      (∃ e, decodeWord w = .error e ∧ perform w s = .next (s.reject .illegal)) := by
  unfold perform
  cases h : decodeWord w with
  | ok i => exact .inl ⟨i, rfl, rfl⟩
  | error e => exact .inr ⟨e, rfl, rfl⟩

/-- Issuing a word performs it at the next position. -/
theorem issue_eq (w : Word) (s : State) : issue w s = perform w s.advance := rfl

/-- What one step can be. -/
theorem step_cases (s : State) :
    (s.inbox = [] ∧ step s = .next s) ∨
      (∃ w rest, s.inbox = .command w :: rest ∧ step s = perform w s.takeEvent.advance) ∨
      (∃ rest, s.inbox = .reset :: rest ∧ step s = .next s.takeEvent.applyReset) ∨
      (∃ w rest, s.inbox = .commandDuringReset w :: rest ∧
        (step s = .next s.takeEvent.advance.applyReset ∨
          step s = mapNext State.applyReset (perform w s.takeEvent.advance))) := by
  unfold step
  split
  · next h => exact .inl ⟨h, rfl⟩
  · next w rest h => exact .inr (.inl ⟨w, rest, h, rfl⟩)
  · next rest h => exact .inr (.inr (.inl ⟨rest, h, rfl⟩))
  · next w rest h =>
    refine .inr (.inr (.inr ⟨w, rest, h, ?_⟩))
    unfold performDuringReset
    split
    · exact .inl rfl
    · right
      cases perform w s.takeEvent.advance <;> rfl

end Sys2Proof.Machine
end

