-- ==== Sys2Proof/Tests/Slice0.lean ====
section
/-! SUPPORT. Tests of the model and witnesses of its statements. Expected results come from spec/95_test_vectors.md (named V-…,
P…), from the examples of the rules, or from the encoding tables of spec/30_encoding.md; none from the model. -/

namespace Sys2Proof.Tests

open Sys2Proof.Machine

/-! ### States of the tests -/

/-- Test configuration T (spec/95_test_vectors.md): W_SEQ = 16, CAP_BYTES = 2. -/
def cfgT : Config := ⟨2, 16, by decide, by decide, by decide⟩

/-- Hardware configuration H of the test vectors: W_SEQ = 255, CAP_BYTES = 32. -/
def cfgH : Config := ⟨32, 255, by decide, by decide, by decide⟩

/-- A bit string as R10 writes it. -/
def bits (s : String) : List Bool := s.toList.map (· == '1')

/-- The register that holds these bits. -/
def seqOf (c : Config) (v : List Bool) : BitSeq := ⟨v.length, v ++ List.replicate (c.wSeq - v.length) false⟩

/-- The reset state with one register loaded. -/
def holding (c : Config) (r : Reg) (v : List Bool) : State := (State.resetOf c).setSeq r (seqOf c v)

/-- What a word gives: its response, and what `f` shows of the state after it. -/
def after {α : Type} (w : Word) (s : State) (f : State → α) : Option (Response × α) :=
  (issued w s).map fun t => (t.lastResponse, f t)

/-- Step from reset, with the word placed as the next instruction, performs it: one response, not ILLEGAL. -/
def runsFromReset (w : Nat) : Bool :=
  match step (State.reset.withFetchWord 16 w) with
  | .next t => t.responses.length == 1 && t.pos == 1 && t.lastResponse.status != .illegal
  | .fault _ => false
  | .refused _ => false

/-- The example of R81, before: CUR = 12, P = [0xB3, 0x80], S0 = "101100111000". -/
def partly : State := (holding cfgT 0 (bits "101100111000")).setPacker ⟨[(0, 0xB3), (1, 0x80)], [], 1, 4, false, 0⟩

/-- The example of R81, after: CUR = 24, P = [0xB3, 0x8B], O[0] = 0x38. -/
def overflowed : State :=
  (holding cfgT 0 (bits "101100111000")).setPacker ⟨[(0, 0xB3), (1, 0x8B)], [(0, 0x38)], 3, 0, true, 1⟩

/-- The end of V-PK-7: P = [0xAA, 0xAA], CUR = 16; and S2 = "1". -/
def filled : State := (holding cfgT 2 (bits "1")).setPacker ⟨[(0, 0xAA), (1, 0xAA)], [], 2, 0, false, 0⟩

/-- A register at its bound: S0 has len 16. -/
def fullReg : State := holding cfgT 0 (List.replicate 16 true)

/-! ### Well-formedness: one ill-formed statement for each check -/

theorem test_refuses_registers_past_S15 :
    Stmt.wellFormed (.sqClear 16) = false ∧ Stmt.wellFormed (.sqAppend 16 0) = false ∧
    Stmt.wellFormed (.sqGet 16 0) = false ∧ Stmt.wellFormed (.sqLen 16) = false ∧
    Stmt.wellFormed (.sqClone 16 0) = false ∧ Stmt.wellFormed (.sqClone 0 16) = false ∧
    Stmt.wellFormed (.pkAppend 16) = false ∧ Stmt.wellFormed (.sqFork 16 0 0) = false ∧
    Stmt.wellFormed (.sqFork 0 16 0) = false := by decide

theorem test_refuses_operands_out_of_range :
    Stmt.wellFormed (.sqAppend 0 2) = false ∧ Stmt.wellFormed (.sqFork 0 0 2) = false ∧
    Stmt.wellFormed (.sqGet 0 256) = false ∧ Stmt.wellFormed (.word 65536) = false := by decide

theorem test_accepts_operands_at_their_bounds :
    Stmt.wellFormed (.sqClear 15) ∧ Stmt.wellFormed (.sqAppend 15 1) ∧ Stmt.wellFormed (.sqGet 15 255) ∧
    Stmt.wellFormed (.sqClone 15 15) ∧ Stmt.wellFormed (.pkAppend 15) ∧ Stmt.wellFormed (.sqFork 15 15 1) ∧
    Stmt.wellFormed (.word 65535) ∧ Stmt.wellFormed .pkHasOvf ∧ Stmt.wellFormed .pkDrainF ∧
    Stmt.wellFormed .pkDrainP ∧ Stmt.wellFormed .pkIsEmpty := by decide

/-! ### Decoding: words written out from R59, R60 and R63 -/

theorem test_decode_sq_family :
    decodeWord 0b0001_1111_0000_0000 = .ok (.sqClear 15) ∧
    decodeWord 0b0010_1111_0000_000_1 = .ok (.sqAppend 15 true) ∧
    decodeWord 0b0010_0101_0000_000_0 = .ok (.sqAppend 5 false) ∧
    decodeWord 0b0011_0000_11111111 = .ok (.sqGet 0 255) ∧
    decodeWord 0b0011_1000_00000001 = .ok (.sqGet 8 1) ∧
    decodeWord 0b0100_1010_0000_0000 = .ok (.sqLen 10) ∧
    decodeWord 0b0101_1010_0000_0101 = .ok (.sqClone 10 5) := by decide

theorem test_decode_pk_family :
    decodeWord 0b1000_1111_0000_0000 = .ok (.pkAppend 15) ∧
    decodeWord 0b1001_0000_0000_0000 = .ok .pkHasOvf ∧ decodeWord 0b1010_0000_0000_0000 = .ok .pkDrainF ∧
    decodeWord 0b1011_0000_0000_0000 = .ok .pkDrainP ∧ decodeWord 0b1100_0000_0000_0000 = .ok .pkIsEmpty := by decide

/-- V-E-1, V-E-10, V-E-15. -/
theorem test_decode_reserved_op :
    [0x0000, 0x6000, 0x7123, 0xD000, 0xE5A5, 0xFFFF].map decodeWord = List.replicate 6 (.error .reservedOp) := by
  decide

/-- V-E-3, V-E-5, V-E-9, V-E-12, V-E-14. -/
theorem test_decode_must_be_zero :
    [0x1F01, 0x2F02, 0x5A15, 0x8F01, 0x9100, 0xA001, 0xB080, 0xC100].map decodeWord =
      List.replicate 8 (.error .mustBeZero) := by decide

/-- Each row's match word, as the opcode table gives it, is the first instruction a step from reset runs. -/
theorem test_table_words_run_from_reset :
    [0x1000, 0x2000, 0x3000, 0x4000, 0x5000, 0x8000, 0x9000, 0xA000, 0xB000, 0xC000].all runsFromReset = true := by
  decide +kernel

/-! ### Sequence unit: one step each -/

/-- V-SQ-19. -/
theorem test_sqClear :
    after 0x1200 (holding cfgT 2 (bits "101")) (fun t => t.seq 2) = some (⟨.ok, 0, []⟩, seqOf cfgT []) := by decide

/-- V-SQ-20. -/
theorem test_sqClear_malformed :
    after 0x1201 (holding cfgT 2 (bits "101")) (fun t => t.seq 2) = some (⟨.illegal, 0, []⟩, seqOf cfgT (bits "101")) := by
  decide

/-- V-SQ-5. -/
theorem test_sqAppend_last_bit :
    after 0x2001 (holding cfgT 0 (bits "010101010101010")) (fun t => t.seq 0) =
      some (⟨.ok, 0, []⟩, seqOf cfgT (bits "0101010101010101")) := by decide

/-- V-SQ-6, and the same bound in configuration H, V-SQ-7. -/
theorem test_sqAppend_full :
    after 0x2000 fullReg (fun t => t.seq 0) = some (⟨.seqFull, 0, []⟩, fullReg.seq 0) ∧
    after 0x2001 (holding cfgH 0 (List.replicate 255 true)) (fun t => (t.seq 0).len) = some (⟨.seqFull, 0, []⟩, 255) := by
  decide +kernel

/-- V-SQ-9, V-SQ-10, V-SQ-11. -/
theorem test_sqGet :
    after 0x3100 (holding cfgT 1 (bits "10")) State.block = some (⟨.ok, 1, []⟩, (holding cfgT 1 (bits "10")).block) ∧
    after 0x3101 (holding cfgT 1 (bits "10")) State.block = some (⟨.ok, 0, []⟩, (holding cfgT 1 (bits "10")).block) ∧
    after 0x3102 (holding cfgT 1 (bits "10")) State.block =
      some (⟨.indexOutOfRange, 0, []⟩, (holding cfgT 1 (bits "10")).block) := by decide

/-- V-SQ-12, V-SQ-13. -/
theorem test_sqGet_bounds :
    after 0x30FE (holding cfgH 0 (List.replicate 254 false ++ [true])) (fun t => t.packer.cur) =
      some (⟨.ok, 1, []⟩, 0) ∧
    after 0x30FF (holding cfgH 0 (List.replicate 255 true)) (fun t => t.packer.cur) =
      some (⟨.indexOutOfRange, 0, []⟩, 0) := by decide +kernel

/-- V-SQ-14, and the example of R77. -/
theorem test_sqLen :
    after 0x4000 (holding cfgH 0 (List.replicate 255 true)) (fun t => t.packer.cur) = some (⟨.ok, 255, []⟩, 0) ∧
    after 0x4100 (holding cfgT 1 (bits "10")) (fun t => t.packer.cur) = some (⟨.ok, 2, []⟩, 0) := by decide +kernel

/-- V-SQ-16, first word: the destination is `RA`, the source `RB`. -/
theorem test_sqClone :
    after 0x5400 (holding cfgT 0 (bits "1")) (fun t => (t.seq 4, t.seq 0)) =
      some (⟨.ok, 0, []⟩, seqOf cfgT (bits "1"), seqOf cfgT (bits "1")) := by decide

/-- V-SQ-17. -/
theorem test_sqClone_same :
    after 0x5303 (holding cfgT 3 (bits "011")) (fun t => t.seq 3) = some (⟨.ok, 0, []⟩, seqOf cfgT (bits "011")) := by
  decide

/-- V-SQ-22: SQ_FORK of a full register. -/
theorem test_fork_of_a_full_register :
    (issueAll [0x5200, 0x2200] fullReg).map (fun t => (t.seq 2, t.responses)) =
      some (fullReg.seq 0, [⟨.ok, 0, []⟩, ⟨.seqFull, 0, []⟩]) := by decide

/-! ### Packer unit: one step each -/

/-- The example of R81, and program P2, row 15. -/
theorem test_pkAppend_crosses :
    after 0x8000 partly State.packer = some (⟨.ok, 0, []⟩, ⟨[(0, 0xB3), (1, 0x8B)], [(0, 0x38)], 3, 0, true, 1⟩) := by decide

/-- V-PK-22: 254 bits to P and one to O, in configuration H. -/
theorem test_pkAppend_255_bits :
    after 0x8100 ((holding cfgH 1 (List.replicate 255 true)).setPacker ⟨[(0, 0xC0)], [], 0, 2, false, 0⟩) State.packer =
      some (⟨.ok, 0, []⟩, ⟨(List.range 32).map (fun k => (k, 0xFF)), [(0, 0x80)], 32, 1, true, 1⟩) := by decide +kernel

/-- V-PK-7, the exact fill, and V-PK-1: PK_HASOVF is 0; it is 1 in overflow mode (P2, row 16). -/
theorem test_pkHasOvf :
    after 0x9000 filled State.block = some (⟨.ok, 0, []⟩, filled.block) ∧
    after 0x9000 overflowed State.block = some (⟨.ok, 1, []⟩, overflowed.block) := by decide

/-- The example of R83, and program P2, row 18. -/
theorem test_pkDrainF :
    after 0xA000 overflowed State.packer = some (⟨.ok, 0, [0xB3, 0x8B]⟩, ⟨[(0, 0x38)], [], 1, 0, false, 0⟩) := by decide

/-- V-PK-8. -/
theorem test_pkDrainF_exact_fill :
    after 0xA000 filled State.block = some (⟨.noOverflow, 0, []⟩, filled.block) := by decide

/-- The second example of R84, and V-PK-13. -/
theorem test_pkDrainP :
    after 0xB000 ((State.resetOf cfgT).setPacker ⟨[(0, 0x4C)], [], 0, 6, false, 0⟩) State.packer =
      some (⟨.ok, 0, [0x4C]⟩, ⟨[], [], 0, 0, false, 0⟩) ∧
    after 0xB000 (State.resetOf cfgT) State.packer = some (⟨.ok, 0, []⟩, ⟨[], [], 0, 0, false, 0⟩) := by decide

/-- V-PK-12, and V-PK-15: ILLEGAL comes before OVERFLOW_PENDING. -/
theorem test_pkDrainP_in_overflow :
    after 0xB000 overflowed State.block = some (⟨.overflowPending, 0, []⟩, overflowed.block) ∧
    after 0xB001 overflowed State.block = some (⟨.illegal, 0, []⟩, overflowed.block) := by decide

/-- V-PK-1, and the example of R85. -/
theorem test_pkIsEmpty :
    after 0xC000 (State.resetOf cfgT) State.packer = some (⟨.ok, 1, []⟩, ⟨[], [], 0, 0, false, 0⟩) ∧
    after 0xC000 ((State.resetOf cfgT).setPacker ⟨[(0, 0x38)], [], 1, 0, false, 0⟩) State.packer =
      some (⟨.ok, 0, []⟩, ⟨[(0, 0x38)], [], 1, 0, false, 0⟩) := by decide

/-! ### Assembler text: the forms of R68, R71, R72 and program P3 -/

theorem test_assembler_lines :
    Asm.line "SQ_APPEND S0, 1".toList = some [0x2001] ∧ Asm.line "  sq_get s1, 0x08 ; a comment".toList = some [0x3108] ∧
    Asm.line "SQ_FORK S2, S1, 0".toList = some [0x5201, 0x2200] ∧ Asm.line ".word 0xB001".toList = some [0xB001] ∧
    Asm.line "PK_DRAINF".toList = some [0xA000] ∧ Asm.line "; only a comment".toList = some [] := by decide +kernel

theorem test_assembler_refuses :
    Asm.line "SQ_CLEAR S16".toList = none ∧ Asm.line "SQ_APPEND S0, 2".toList = none ∧
    Asm.line "SQ_GET S0, 256".toList = none ∧ Asm.line "PK_DRAINF S0".toList = none ∧
    Asm.line "SQ_CLONE S1".toList = none ∧ Asm.line "NOP".toList = none := by decide +kernel

/-- R70: an ILLEGAL word is shown as `.word 0xhhhh`. -/
theorem test_disassembly_text :
    Asm.text (disassemble 0x5A05) = "SQ_CLONE S10, S5".toList ∧ Asm.text (disassemble 0xB001) = ".word 0xb001".toList := by
  decide +kernel

/-! ### Witnesses: the states of the tests meet the invariants

Each `witness_<Name>` shows states and operands that meet the hypotheses of `Obligations.<Name>`, one for each clause, at the
bounds of its ranges. -/

theorem seqOf_ok (c : Config) (v : List Bool) (h : v.length ≤ c.wSeq) : (seqOf c v).Ok c := by
  refine ⟨by simp [seqOf]; omega, h, fun i h1 h2 => ?_⟩
  simp only [seqOf] at h1
  simp only [seqOf, BitSeq.getBit]
  rw [List.getElem?_append_right h1, List.getElem?_replicate, if_pos (by omega)]

theorem holding_inv (c : Config) (r : Reg) (v : List Bool) (h : v.length ≤ c.wSeq) : Inv (holding c r v) := by
  refine ⟨fun q => ?_, reset_ok c⟩
  simp only [holding, seq_setSeq, setSeq_cfg]
  split
  · exact seqOf_ok c v h
  · rw [resetOf_seq]; exact BitSeq.empty_ok c

/-- A packer of configuration T, its PADZ checked bit by bit. -/
theorem packer_ok (p : Packer) (hc : p.CursorOk cfgT) (hz : ∀ L < 32, p.cur ≤ L → p.logicalBit cfgT L = false)
    (hb : p.BuffersOk cfgT) : p.Ok cfgT :=
  ⟨hc, (padz_iff cfgT p).2 fun L h1 h2 => hz L h2 h1, hb⟩

theorem partly_inv : Inv partly :=
  ⟨(holding_inv cfgT 0 (bits "101100111000") (by decide)).seqs,
    packer_ok _ ⟨by decide, by decide⟩ (by decide) ⟨by decide, by decide, by decide, by decide⟩⟩

theorem overflowed_inv : Inv overflowed :=
  ⟨(holding_inv cfgT 0 (bits "101100111000") (by decide)).seqs,
    packer_ok _ ⟨by decide, by decide⟩ (by decide) ⟨by decide, by decide, by decide, by decide⟩⟩

theorem filled_inv : Inv filled :=
  ⟨(holding_inv cfgT 2 (bits "1") (by decide)).seqs,
    packer_ok _ ⟨by decide, by decide⟩ (by decide) ⟨by decide, by decide, by decide, by decide⟩⟩

theorem fullReg_inv : Inv fullReg := holding_inv cfgT 0 _ (by decide)

theorem reset_inv : Inv (State.resetOf cfgT) :=
  ⟨fun r => by rw [resetOf_seq]; exact BitSeq.empty_ok cfgT, reset_ok cfgT⟩

/-- The command goes on from this state. -/
def goesOn (i : Instr) (s : State) : Bool :=
  match exec i s with
  | .next _ => true
  | .fault _ => false
  | .refused _ => false

theorem next_of_goesOn {i : Instr} {s : State} (h : goesOn i s = true) : ∃ t, exec i s = .next t := by
  unfold goesOn at h
  cases e : exec i s with
  | next t => exact ⟨t, rfl⟩
  | fault f => rw [e] at h; cases h
  | refused r => rw [e] at h; cases h

theorem next_of_issued {w : Word} {s : State} (h : (issued w s).isSome = true) : ∃ t, issue w s = .next t := by
  unfold issued at h
  cases e : issue w s with
  | next t => exact ⟨t, rfl⟩
  | fault f => rw [e] at h; cases h
  | refused r => rw [e] at h; cases h

/-! ### Witnesses: configuration, reset, encoding -/

/-- Legal sets at the bounds, and one illegal set for each bound. -/
theorem witness_IllegalParametersGiveNoBlock :
    (Config.elaborate 2 16 16 = some cfgT ∧ Config.elaborate 32 255 16 = some cfgH ∧
      (Config.elaborate 1 1 16).isSome ∧ (Config.elaborate 1 8 16).isSome) ∧
    Config.elaborate 32 0 16 = none ∧ Config.elaborate 32 256 16 = none ∧ Config.elaborate 31 255 16 = none ∧
    Config.elaborate 1 9 16 = none ∧ Config.elaborate 32 255 15 = none := by decide

theorem witness_ResetValues : 15 < cfgT.wSeq ∧ 1 < cfgT.capBytes ∧ 1 < cfgT.ocapBytes := by decide

theorem witness_ResetEventResetsTheBlock :
    (overflowed.withFetchWord 16 0x9000).inbox = [.command 0x9000] ∧
    ∃ s : State, s.inbox = .reset :: [.command 0x9000] ∧ s.block ≠ (State.resetOf s.cfg).block :=
  ⟨by decide, { overflowed with inbox := [.reset, .command 0x9000] }, rfl, by decide⟩

theorem witness_ResetDuringCommandIsBeforeOrAfter :
    ∃ s : State, Inv s ∧ s.inbox = .commandDuringReset 0x8000 :: [] :=
  ⟨{ partly with inbox := [.commandDuringReset 0x8000] }, ⟨partly_inv.seqs, partly_inv.packer⟩, rfl⟩

theorem witness_StepPerformsTheDecodedCommand :
    (partly.withFetchWord 16 0x8000).inbox = .command 0x8000 :: [] ∧ decodeWord 0x8000 = .ok (.pkAppend 0) ∧
    (partly.withFetchWord 16 0x8001).inbox = .command 0x8001 :: [] ∧ decodeWord 0x8001 = .error .mustBeZero ∧
    partly.inbox = [] := by decide

/-- A command that succeeds and one that is rejected. -/
theorem witness_PositionGoesUpByOne :
    (∃ t, step (partly.present 0x8000) = .next t) ∧ ∃ t, step (overflowed.present 0x8000) = .next t :=
  ⟨next_of_issued (w := 0x8000) (by decide), next_of_issued (w := 0x8000) (by decide)⟩

theorem witness_DecodeEncodeRoundTrip : decodeWord 0x5A05 = .ok (.sqClone 10 5) := by decide

theorem witness_DecodingIsTotalAndUnambiguous :
    decodeWord 0x5A05 = .ok (.sqClone 10 5) ∧ (opcodeMap.filter fun r => r.hits 0x5A05).length = 1 ∧
    (opcodeMap.filter fun r => r.hits 0x5A15).length = 0 := by decide

/-- Each clause of the must-be-zero words at its least illegal value. -/
theorem witness_ReservedAndMalformedWordsAreIllegal :
    [0x1001, 0x4001, 0x8001, 0x2002, 0x5010, 0x9001, 0x9100].map decodeWord =
      List.replicate 7 (.error .mustBeZero) ∧ decodeWord 0x0000 = .error .reservedOp := by decide

/-! ### Witnesses: sequence unit -/

theorem witness_SqClearMakesTheEmptySequence :
    ∃ imm imm' : Nat, 0 < imm ∧ imm < 256 ∧ imm' = 255 ∧ 0 < imm' ∧ imm' < 256 := ⟨1, 255, by decide⟩

/-- A register at its bound, one a bit below it, and an empty one. -/
theorem witness_SqAppendAppendsOneBit :
    ((fullReg.seq 0).Ok fullReg.cfg ∧ (fullReg.seq 0).len = fullReg.cfg.wSeq) ∧
    ((partly.seq 0).Ok partly.cfg ∧ (partly.seq 0).len ≠ partly.cfg.wSeq) ∧
    ((partly.seq 1).Ok partly.cfg ∧ (partly.seq 1).len ≠ partly.cfg.wSeq) ∧
    ∃ imm : Nat, 2 ≤ imm ∧ imm < 256 :=
  ⟨⟨fullReg_inv.seqs 0, by decide⟩, ⟨partly_inv.seqs 0, by decide⟩, ⟨partly_inv.seqs 1, by decide⟩, 2, by decide⟩

/-- The last bit of a register, and the position just past it. -/
theorem witness_SqGetReturnsTheBit :
    (partly.seq 0).Ok partly.cfg ∧ (11#8).toNat < (partly.seq 0).len ∧ (partly.seq 0).len ≤ (12#8).toNat :=
  ⟨partly_inv.seqs 0, by decide⟩

theorem witness_SqLenReturnsTheLength :
    (fullReg.seq 0).Ok fullReg.cfg ∧ ∃ imm : Nat, 0 < imm ∧ imm < 256 := ⟨fullReg_inv.seqs 0, 255, by decide⟩

theorem witness_SqCloneCopiesTheRegister :
    (0 : Reg) ≠ 15 ∧ (3 : Reg) = 3 ∧ ∃ imm : Nat, 16 ≤ imm ∧ imm < 256 := ⟨by decide, rfl, 16, by decide⟩

/-- Each command of the unit, one of them rejected. -/
theorem witness_SqFrame :
    ∀ i ∈ [Instr.sqClear 0, .sqAppend 0 true, .sqGet 0 0, .sqGet 0 255, .sqLen 0, .sqClone 1 0],
      isSq i = true ∧ ∃ t, exec i partly = .next t := by
  intro i hi
  have h : [Instr.sqClear 0, .sqAppend 0 true, .sqGet 0 0, .sqGet 0 255, .sqLen 0, .sqClone 1 0].all
      (fun i => isSq i && goesOn i partly) = true := by decide
  have := List.all_eq_true.1 h i hi
  rw [Bool.and_eq_true] at this
  exact ⟨this.1, next_of_goesOn this.2⟩

theorem witness_SqCommandsIgnoreThePacker :
    isSq (.sqAppend 0 true) = true ∧ ∃ t, exec (.sqAppend 0 true) overflowed = .next t :=
  ⟨rfl, next_of_goesOn (by decide)⟩

/-! ### Witnesses: packer unit -/

/-- Overflow mode; normal mode with bits to pack; a bit and a logical address on each side of the packed range; and an
empty register in a full buffer. -/
theorem witness_PkAppendPacksTheSequence :
    (Inv overflowed ∧ overflowed.packer.ovf = true) ∧ (Inv partly ∧ partly.packer.ovf = false) ∧
    11 < (partly.seq 0).len ∧
    (¬ (partly.packer.cur ≤ 11 ∧ 11 < partly.packer.cur + (partly.seq 0).len)) ∧
    (¬ (partly.packer.cur ≤ 24 ∧ 24 < partly.packer.cur + (partly.seq 0).len)) ∧
    (Inv filled ∧ filled.packer.ovf = false ∧ (filled.seq 0).len = 0) :=
  ⟨⟨overflowed_inv, rfl⟩, ⟨partly_inv, rfl⟩, by decide, by decide, by decide, filled_inv, rfl, by decide⟩

theorem witness_PkHasOvfReportsOverflow : ∃ f g : Nat, f = 1 ∧ g = 4095 ∧ 0 < f ∧ g < 4096 := ⟨1, 4095, by decide⟩

theorem witness_PkDrainFReturnsTheBufferAndCarries :
    (Inv filled ∧ filled.packer.ovf = false) ∧ (Inv overflowed ∧ overflowed.packer.ovf = true) :=
  ⟨⟨filled_inv, rfl⟩, overflowed_inv, rfl⟩

/-- Overflow mode; a partly filled last byte, with its lowest pad bit; and an empty packer. -/
theorem witness_PkDrainPReturnsTheBytesWritten :
    (Inv overflowed ∧ overflowed.packer.ovf = true) ∧
    (Inv partly ∧ partly.packer.ovf = false ∧ partly.packer.cur % 8 ≠ 0 ∧ 3 < 8 - partly.packer.cur % 8) ∧
    (Inv fullReg ∧ fullReg.packer.ovf = false ∧ fullReg.packer.cur = 0) :=
  ⟨⟨overflowed_inv, rfl⟩, ⟨partly_inv, rfl, by decide, by decide⟩, fullReg_inv, rfl, rfl⟩

theorem witness_PkIsEmptyReportsEmpty : Inv overflowed ∧ overflowed.packer.ovf = true := ⟨overflowed_inv, rfl⟩

/-- A query, an append with an address on each side of its bytes, and a partial drain. -/
theorem witness_PkFrame :
    Inv partly ∧ isSq .pkHasOvf = false ∧ isQuery .pkHasOvf = true ∧ (∃ t, exec .pkHasOvf partly = .next t) ∧
    isSq (.pkAppend 0) = false ∧ (∃ t, exec (.pkAppend 0) partly = .next t) ∧ 0 < partly.packer.cur / 8 ∧
    divUp (partly.packer.cur + (partly.seq 0).len) 8 ≤ 3 ∧
    isSq .pkDrainP = false ∧ ∃ t, exec .pkDrainP partly = .next t :=
  ⟨partly_inv, rfl, rfl, next_of_goesOn (by decide), rfl, next_of_goesOn (by decide), by decide, by decide, rfl,
    next_of_goesOn (by decide)⟩

/-! ### Witnesses: responses, observability, flags -/

theorem witness_RejectionChangesNothing :
    (∃ t, issue 0x8000 overflowed = .next t) ∧
    (issued 0x8000 overflowed).map (fun t => t.lastResponse.status) = some .overflowPending :=
  ⟨next_of_issued (by decide), by decide⟩

theorem witness_StatusOfEveryCommand : Inv partly ∧ Inv overflowed ∧ Inv fullReg :=
  ⟨partly_inv, overflowed_inv, fullReg_inv⟩

theorem witness_ResponseOfEveryCommand :
    Inv overflowed ∧ (∃ t, exec .pkDrainF overflowed = .next t) ∧ ∃ t, exec .pkDrainP overflowed = .next t :=
  ⟨overflowed_inv, next_of_goesOn (by decide), next_of_goesOn (by decide)⟩

theorem witness_DrainBeforeAppend :
    Inv overflowed ∧ overflowed.packer.ovf = true ∧ isSq .pkDrainF = false ∧
    (issued 0xA000 overflowed).any (fun t => t.block != overflowed.block) = true :=
  ⟨overflowed_inv, rfl, rfl, by decide⟩

/-- A register file that agrees with `partly` in S0 alone: S1 differs. -/
theorem witness_RegistersReadAndWritten :
    ∃ v : Vector BitSeq 16, (∀ r, readsReg (.sqAppend 0 true) r = true → v.get r = partly.seq r) ∧
      v.get 1 ≠ partly.seq 1 ∧ ∃ t, exec (.sqAppend 0 true) partly = .next t := by
  refine ⟨partly.seqs.set 1 (seqOf cfgT (bits "1")), fun r h => ?_, by decide, next_of_goesOn (by decide)⟩
  simp only [readsReg, beq_iff_eq] at h
  subst h
  decide

/-- Two registers "10" that differ in the cells past the length. -/
theorem witness_BitsBeyondTheLengthAreNotObservable :
    ∃ s s' : State, SameValues s s' ∧ s ≠ s' ∧ ∃ t, exec (.sqAppend 0 true) s = .next t := by
  refine ⟨holding cfgT 0 (bits "10"), (holding cfgT 0 (bits "10")).setSeq 0 ⟨2, true :: List.replicate 15 false |>.set 15 true⟩,
    ⟨rfl, fun r => ?_, rfl, rfl, rfl, rfl⟩, by decide, next_of_goesOn (by decide)⟩
  by_cases h : r = 0
  · subst h
    exact ⟨by decide, by decide, by decide, by decide, by decide⟩
  · rw [seq_setSeq_other _ _ _ h]
    have := (holding_inv cfgT 0 (bits "10") (by decide)).seqs r
    exact ⟨this.cells, this.cells, this.len_le, rfl, rfl⟩

theorem witness_DrainsAreDestructiveAndQueriesAreNot :
    (Inv partly ∧ partly.packer.ovf = false) ∧ (Inv overflowed ∧ overflowed.packer.ovf = true) ∧
    ∀ i ∈ [Instr.sqGet 0 11, .sqGet 0 12, .sqLen 0, .pkHasOvf, .pkIsEmpty], isQuery i = true :=
  ⟨⟨partly_inv, rfl⟩, ⟨overflowed_inv, rfl⟩, by decide⟩

/-- OVF goes up by the PK_APPEND of R81's example and down by its PK_DRAINF. -/
theorem witness_OvfIsSetAndClearedOnlySo :
    (Inv (partly.present 0x8000) ∧ partly.packer.ovf = false ∧
      (issued 0x8000 partly).any (fun t => t.packer.ovf) = true) ∧
    (Inv (overflowed.present 0xA000) ∧ overflowed.packer.ovf = true ∧
      (issued 0xA000 overflowed).any (fun t => !t.packer.ovf) = true) :=
  ⟨⟨⟨partly_inv.seqs, partly_inv.packer⟩, rfl, by decide⟩, ⟨overflowed_inv.seqs, overflowed_inv.packer⟩, rfl, by decide⟩

theorem witness_EmptyIsCursorZero : Inv overflowed ∧ overflowed.packer.ovf = true := ⟨overflowed_inv, rfl⟩

/-- The last bit of P, the first and the last bit of O. -/
theorem witness_LogicalBitAddressing :
    overflowed.packer.BuffersOk cfgT ∧ 15 < cfgT.pbits ∧ (cfgT.pbits ≤ 16 ∧ 16 < cfgT.pbits + 8 * cfgT.ocapBytes) ∧
    cfgT.pbits ≤ 31 ∧ 31 < cfgT.pbits + 8 * cfgT.ocapBytes :=
  ⟨overflowed_inv.packer.buffers, by decide⟩

theorem witness_StateFitsTheStorageBound : Inv overflowed ∧ overflowed.cfg.capBytes ≤ 2 ∧ overflowed.cfg.ocapBytes ≤ 2 :=
  ⟨overflowed_inv, by decide⟩

/-! ### Witnesses: invariants and laws -/

theorem witness_EveryStepKeepsTheInvariants : Inv (partly.present 0x8000) ∧ ∃ t, step (partly.present 0x8000) = .next t :=
  ⟨⟨partly_inv.seqs, partly_inv.packer⟩, next_of_issued (w := 0x8000) (by decide)⟩

theorem witness_NoStepStops : Inv (overflowed.present 0xA000) := ⟨overflowed_inv.seqs, overflowed_inv.packer⟩

theorem witness_DrainDataAreTheHeldBits :
    (Inv partly ∧ partly.packer.ovf = false) ∧ (Inv overflowed ∧ overflowed.packer.ovf = true) :=
  ⟨⟨partly_inv, rfl⟩, overflowed_inv, rfl⟩

/-- Records that agree with 12 held bits; and a rejected command. -/
theorem witness_ConservationOfBits :
    (Inv partly ∧ (⟨bits "101100111000", []⟩ : Records).appended = [] ++ partly.packer.heldBits partly.cfg) ∧
    (∃ t, issue 0x8000 overflowed = .next t) ∧
    (issued 0x8000 overflowed).any (fun t => t.lastResponse.status != .ok) = true :=
  ⟨⟨partly_inv, by decide⟩, next_of_issued (by decide), by decide⟩

/-- Three codewords, one empty and one of W_SEQ bits, from a state with an empty packer. -/
theorem witness_EncoderOutputIsThePackedStream :
    Inv fullReg ∧ fullReg.packer.cur = 0 ∧
    ∀ xq ∈ [((0 : Reg), bits "101"), (1, []), (0, List.replicate 16 true)], xq.2.length ≤ fullReg.cfg.wSeq :=
  ⟨fullReg_inv, rfl, by decide⟩

/-- N = 19, N = 16 and N = 0 with PBITS = 16: the three cases of R89, each of which the protocol completes. -/
theorem witness_OverflowFrequency :
    (Inv fullReg ∧ fullReg.packer.cur = 0) ∧
    (encodeStream [(1, bits "101"), (0, List.replicate 16 true)] fullReg).isSome = true ∧ 19 % fullReg.cfg.pbits ≠ 0 ∧
    (encodeStream [(0, List.replicate 16 true)] fullReg).isSome = true ∧ 16 % fullReg.cfg.pbits = 0 ∧
    (encodeStream [] fullReg).isSome = true :=
  ⟨⟨fullReg_inv, rfl⟩, by decide +kernel⟩

theorem witness_OutputAndHeldBitsAreBounded :
    Inv overflowed ∧ overflowed.packer.ovf = true ∧ (∃ t, exec .pkDrainF overflowed = .next t) ∧
    ∃ t, exec .pkDrainP overflowed = .next t :=
  ⟨overflowed_inv, rfl, next_of_goesOn (by decide), next_of_goesOn (by decide)⟩

theorem witness_RejectedAppendCanBeReissued : Inv overflowed ∧ overflowed.packer.ovf = true := ⟨overflowed_inv, rfl⟩

/-- A source with room and a full one; two registers and one. -/
theorem witness_ForkIsCloneThenAppend :
    (Inv partly ∧ (partly.seq 0).len < partly.cfg.wSeq) ∧ (Inv fullReg ∧ (fullReg.seq 0).len = fullReg.cfg.wSeq) ∧
    (2 : Reg) ≠ 0 ∧ (0 : Reg) = 0 :=
  ⟨⟨partly_inv, by decide⟩, ⟨fullReg_inv, by decide⟩, by decide, rfl⟩

theorem witness_DisassemblyInvertsAssembly : decodeWord 0xB001 = .error .mustBeZero := by decide

/-- The operands of each form at their upper bounds assemble, and one past each bound is refused. -/
theorem witness_AssemblerGivesOnlyCommands :
    [Stmt.assemble (.sqClear 15), Stmt.assemble (.sqAppend 15 1), Stmt.assemble (.sqGet 15 255),
      Stmt.assemble (.sqLen 15), Stmt.assemble (.sqClone 15 15), Stmt.assemble (.pkAppend 15),
      Stmt.assemble (.sqFork 15 15 1), Stmt.assemble (.word 65535)] =
      [some [0x1F00], some [0x2F01], some [0x3FFF], some [0x4F00], some [0x5F0F], some [0x8F00],
        some [0x5F0F, 0x2F01], some [0xFFFF]] ∧
    [Stmt.assemble (.sqClear 16), Stmt.assemble (.sqAppend 16 1), Stmt.assemble (.sqAppend 15 2),
      Stmt.assemble (.sqGet 16 255), Stmt.assemble (.sqGet 15 256), Stmt.assemble (.sqLen 16),
      Stmt.assemble (.sqClone 16 15), Stmt.assemble (.sqClone 15 16), Stmt.assemble (.pkAppend 16),
      Stmt.assemble (.sqFork 16 15 1), Stmt.assemble (.sqFork 15 16 1), Stmt.assemble (.sqFork 15 15 2),
      Stmt.assemble (.word 65536)] = List.replicate 13 none := by decide

/-- Words that write other registers, pack one and read S5 itself; none writes S5. -/
theorem witness_UnwrittenRegisterPacksNothing :
    [0x2001, 0x8000, 0x4500, 0x5405, 0x0000].all (fun w =>
      match decodeWord w with
      | .ok i => !writesReg i 5
      | .error _ => true) = true := by decide

end Sys2Proof.Tests
end

