-- ==== Sys2Proof/Proofs/Scope.lean ====
section
/-! PROOFS. The legality of a parameter set (spec/00_scope.md R9) and what a step does with the host's next event (R16, R93,
R108). -/

namespace Sys2Proof

namespace Config

/-- A configuration carries its own legality, so what the elaboration check gives is fixed by the raw parameters. -/
theorem elaborate_eq_some_iff {capBytes wSeq nSeq : Nat} {c : Config} :
    elaborate capBytes wSeq nSeq = some c ↔ c.capBytes = capBytes ∧ c.wSeq = wSeq ∧ nSeq = 16 := by
  unfold elaborate
  constructor
  · intro h
    split at h
    · next legal =>
      cases h
      exact ⟨rfl, rfl, legal.2.2⟩
    · cases h
  · rintro ⟨rfl, rfl, rfl⟩
    exact dif_pos ⟨⟨c.wSeq_pos, c.wSeq_le⟩, c.cap_ge, rfl⟩

theorem exists_elaborate_eq_some_iff {capBytes wSeq nSeq : Nat} :
    (∃ c, elaborate capBytes wSeq nSeq = some c) ↔
      1 ≤ wSeq ∧ wSeq ≤ 255 ∧ divUp wSeq 8 ≤ capBytes ∧ nSeq = 16 := by
  simp only [elaborate_eq_some_iff]
  constructor
  · rintro ⟨c, rfl, rfl, hn⟩
    exact ⟨c.wSeq_pos, c.wSeq_le, c.cap_ge, hn⟩
  · rintro ⟨hpos, hle, hcap, hn⟩
    exact ⟨⟨capBytes, wSeq, hpos, hle, hcap⟩, rfl, rfl, hn⟩

end Config

/-- Settles O1: a configuration's proof fields are the bounds of R9, and the check gives the one with the raw values. -/
theorem illegalParametersGiveNoBlock : Obligations.IllegalParametersGiveNoBlock := by
  intro capBytes wSeq nSeq
  refine ⟨Config.exists_elaborate_eq_some_iff, fun c h => ?_⟩
  obtain ⟨hcap, hw, -⟩ := Config.elaborate_eq_some_iff.mp h
  exact ⟨hcap, hw⟩

namespace Machine

theorem perform_of_decode_ok {w : Word} {i : Instr} (h : decodeWord w = .ok i) (s : State) :
    perform w s = exec i s := by
  simp only [perform, h]

theorem perform_of_decode_error {w : Word} {e : DecodeError} (h : decodeWord w = .error e) (s : State) :
    perform w s = .next (s.reject .illegal) := by
  simp only [perform, h]

theorem step_of_inbox_nil {s : State} (h : s.inbox = []) : step s = .next s := by
  simp only [step, h]

/-- A command word is performed at the next position of the stream, in the state that no longer holds the event. -/
theorem step_of_inbox_command {s : State} {w : Word} {rest : List HostEvent} (h : s.inbox = .command w :: rest) :
    step s = perform w { s with inbox := rest, pos := s.pos + 1 } := by
  simp only [step, State.takeEvent, State.advance, h, List.tail_cons]

/-- Settles O6: the step performs the word, and the decoder's answer says whether that is the command's meaning or the one
rejection. -/
theorem stepPerformsTheDecodedCommand : Obligations.StepPerformsTheDecodedCommand := by
  refine ⟨fun s w rest i hin hdec => ?_, fun s w rest e hin hdec => ?_, fun s hin => step_of_inbox_nil hin⟩
  · rw [step_of_inbox_command hin, perform_of_decode_ok hdec]
  · rw [step_of_inbox_command hin, perform_of_decode_error hdec]
    rfl

end Machine

end Sys2Proof
end

/-! PROOFS. The state of the block (spec/10_state.md): what reset establishes and every step keeps, what a command reads and
writes, and what of the state no command can show. -/

namespace Sys2Proof.Machine

/-! ### What a command answers, for the five commands that check the state -/

section
variable {s t : State}

theorem exec_sqAppend_next {d : Reg} {b : Bool} : exec (.sqAppend d b) s = .next t ↔
    ((s.seq d).len = s.cfg.wSeq ∧ t = s.reject .seqFull) ∨
    ((s.seq d).len ≠ s.cfg.wSeq ∧ ∃ q, (s.seq d).append b = some q ∧ t = (s.setSeq d q).respond 0 []) := by
  by_cases h : (s.seq d).len = s.cfg.wSeq <;> simp [exec, execSqAppend, h, orNoSuchCell_next, @eq_comm _ t]

theorem exec_sqGet_next {d : Reg} {i : BitVec 8} : exec (.sqGet d i) s = .next t ↔
    ((s.seq d).len ≤ i.toNat ∧ t = s.reject .indexOutOfRange) ∨
    (i.toNat < (s.seq d).len ∧ ∃ b, (s.seq d).getBit i.toNat = some b ∧ t = s.respond (zext8 b) []) := by
  by_cases h : (s.seq d).len ≤ i.toNat
  · simp [exec, execSqGet, h, @eq_comm _ t]
  · simp [exec, execSqGet, h, Nat.lt_of_not_le h, orNoSuchCell_next, @eq_comm _ t]

theorem exec_pkAppend_next {x : Reg} : exec (.pkAppend x) s = .next t ↔
    (s.packer.ovf = true ∧ t = s.reject .overflowPending) ∨
    (s.packer.ovf = false ∧ ∃ bits p, (s.seq x).read = some bits ∧ s.packer.packBits s.cfg bits = some p ∧
      t = (s.setPacker p).respond 0 []) := by
  cases h : s.packer.ovf <;> simp [exec, execPkAppend, h, orNoSuchCell_next, Option.bind_eq_some_iff, @eq_comm _ t]

theorem exec_pkDrainF_next : exec .pkDrainF s = .next t ↔
    (s.packer.ovf = true ∧ ∃ data p, s.packer.P.readBytes s.cfg.capBytes 0 s.cfg.capBytes = some data ∧
      s.packer.clearP.carryBits s.packer s.cfg 0 (s.packer.cur - s.cfg.pbits) = some p ∧
      t = (s.setPacker (p.endOverflow.setCur (s.packer.cur - s.cfg.pbits))).respond 0 data) ∨
    (s.packer.ovf = false ∧ t = s.reject .noOverflow) := by
  cases h : s.packer.ovf <;> simp [exec, execPkDrainF, h, orNoSuchCell_next, Option.bind_eq_some_iff, @eq_comm _ t]

theorem exec_pkDrainP_next : exec .pkDrainP s = .next t ↔
    (s.packer.ovf = true ∧ t = s.reject .overflowPending) ∨
    (s.packer.ovf = false ∧ ∃ data, s.packer.P.readBytes s.cfg.capBytes 0 (divUp s.packer.cur 8) = some data ∧
      t = (s.setPacker (s.packer.clearP.setCur 0)).respond 0 data) := by
  cases h : s.packer.ovf <;> simp [exec, execPkDrainP, h, orNoSuchCell_next, @eq_comm _ t]

end

theorem mapNext_eq_next {f : State → State} {o : Host.Outcome State Fault Refusal} {t : State} :
    mapNext f o = .next t ↔ ∃ u, o = .next u ∧ f u = t := by
  cases o <;> simp [mapNext]

/-! ### The frame of a command -/

section
variable {i : Instr} {s t : State}

/-- A register that R23's table does not list as written is unchanged. -/
theorem exec_seq_of_not_writes (h : exec i s = .next t) {r : Reg} (hr : writesReg i r = false) : t.seq r = s.seq r := by
  cases exec_performed h with
  | rejected st _ ht => rw [ht, reject_seq]
  | register d q hw ht =>
    rw [hw, beq_eq_false_iff_ne] at hr
    rw [ht, respond_seq, seq_setSeq_other _ _ _ hr]
  | query v _ ht => rw [ht, respond_seq]
  | packer p data _ ht => rw [ht, respond_seq, setPacker_seq]

/-- Only PK_APPEND and the two drains change the packer. -/
theorem exec_packer_of_not_packer (h : exec i s = .next t)
    (hi : ¬ ((∃ x, i = .pkAppend x) ∨ i = .pkDrainF ∨ i = .pkDrainP)) : t.packer = s.packer := by
  cases exec_performed h with
  | rejected st _ ht => rw [ht, reject_packer]
  | register d q _ ht => rw [ht, respond_packer, setSeq_packer]
  | query v _ ht => rw [ht, respond_packer]
  | packer p data hp _ => exact absurd hp hi

/-- No command changes the configuration or what the host issues. -/
theorem exec_keeps_cfg_and_stream (h : exec i s = .next t) : t.cfg = s.cfg ∧ t.inbox = s.inbox ∧ t.pos = s.pos := by
  cases exec_performed h with
  | rejected st _ ht => subst ht; exact ⟨rfl, rfl, rfl⟩
  | register d q _ ht => subst ht; exact ⟨rfl, rfl, rfl⟩
  | query v _ ht => subst ht; exact ⟨rfl, rfl, rfl⟩
  | packer p data _ ht => subst ht; exact ⟨rfl, rfl, rfl⟩

theorem exec_adds_one_response (h : exec i s = .next t) : ∃ r, t.responses = s.responses ++ [r] := by
  cases exec_performed h with
  | rejected st _ ht => exact ⟨_, by rw [ht, reject_responses]⟩
  | register d q _ ht => exact ⟨_, by rw [ht, respond_responses, setSeq_responses]⟩
  | query v _ ht => exact ⟨_, by rw [ht, respond_responses]⟩
  | packer p data _ ht => exact ⟨_, by rw [ht, respond_responses, setPacker_responses]⟩

end

/-- Settles O18: an SQ command is none of the three that write the packer, so both buffers stand with it. -/
theorem sqFrame : Obligations.SqFrame := by
  intro i s t hsq h
  have hp : t.packer = s.packer := exec_packer_of_not_packer h (by
    rintro (⟨x, rfl⟩ | rfl | rfl) <;> cases hsq)
  obtain ⟨hcfg, hin, hpos⟩ := exec_keeps_cfg_and_stream h
  exact ⟨fun r => exec_seq_of_not_writes h, hp, fun a => by rw [hp, hcfg], hcfg, hin, hpos, exec_adds_one_response h⟩

/-- Settles O7: the step moves the position before it performs the word, and performing leaves the stream alone. -/
theorem positionGoesUpByOne : Obligations.PositionGoesUpByOne := by
  refine ⟨rfl, fun s t w rest hin hstep => ?_⟩
  rw [step_of_inbox_command hin] at hstep
  obtain ⟨i, -, hp⟩ | ⟨e, -, hp⟩ := perform_cases w { s with inbox := rest, pos := s.pos + 1 }
  · obtain ⟨-, hinbox, hpos⟩ := exec_keeps_cfg_and_stream (hp ▸ hstep)
    exact ⟨hpos, hinbox⟩
  · cases hp ▸ hstep
    exact ⟨rfl, rfl⟩

/-! ### The invariants through the operations -/

/-- The invariants hold right after reset of any legal configuration (R24, R31, R34, R37). -/
theorem inv_resetOf (c : Config) : Inv (State.resetOf c) :=
  ⟨fun r => by rw [resetOf_seq]; exact BitSeq.empty_ok c, reset_ok c⟩

/-- Settles O38: the hardware's reset state is that of its own parameter set. -/
theorem resetMeetsTheInvariants : Obligations.ResetMeetsTheInvariants := inv_resetOf Config.hardware

section
variable {s : State}

theorem inv_applyReset (s : State) : Inv s.applyReset :=
  ⟨fun r => by rw [applyReset_seq]; exact BitSeq.empty_ok s.cfg, reset_ok s.cfg⟩

theorem Inv.respond (h : Inv s) (v : Byte) (data : List Byte) : Inv (s.respond v data) := ⟨h.seqs, h.packer⟩

theorem Inv.reject (h : Inv s) (st : Status) : Inv (s.reject st) := ⟨h.seqs, h.packer⟩

theorem Inv.nextCommand (h : Inv s) : Inv s.takeEvent.advance := ⟨h.seqs, h.packer⟩

theorem Inv.setPacker (h : Inv s) {p : Packer} (hp : p.Ok s.cfg) : Inv (s.setPacker p) := ⟨h.seqs, hp⟩

theorem Inv.setSeq (h : Inv s) (d : Reg) {q : BitSeq} (hq : q.Ok s.cfg) : Inv (s.setSeq d q) := by
  refine ⟨fun r => ?_, h.packer⟩
  rw [seq_setSeq, setSeq_cfg]
  split
  · exact hq
  · exact h.seqs r

end

theorem BitSeq.append_eq_some {q r : BitSeq} {b : Bool} :
    q.append b = some r ↔ q.len < q.bits.length ∧ r = ⟨q.len + 1, q.bits.set q.len b⟩ := by
  simp [BitSeq.append, @eq_comm _ r]

/-- Appending a bit keeps a register legal (R75). -/
theorem BitSeq.Ok.append {c : Config} {q q' : BitSeq} {b : Bool} (h : q.Ok c) (hq : q.append b = some q') : q'.Ok c := by
  obtain ⟨hlen, -⟩ := BitSeq.append_eq_some.mp hq
  obtain ⟨r, hr, -, hok, -⟩ := BitSeq.append_ok h (h.cells ▸ hlen) b
  cases hr.symm.trans hq
  exact hok

/-- PK_APPEND from a good state: it is rejected in overflow mode, and packs the register's value otherwise (R81). -/
theorem exec_pkAppend_packs {s t : State} {x : Reg} (h : Inv s) (ht : exec (.pkAppend x) s = .next t) :
    (s.packer.ovf = true ∧ t = s.reject .overflowPending) ∨
    (s.packer.ovf = false ∧ ∃ p, Packs s.cfg s.packer (s.seq x).value p ∧ t = (s.setPacker p).respond 0 []) := by
  obtain hrej | ⟨hv, bits, p, hread, hpack, rfl⟩ := exec_pkAppend_next.mp ht
  · exact .inl hrej
  · rw [BitSeq.read_ok (h.seqs x), Option.some.injEq] at hread
    subst hread
    have hcur := (h.packer.cursor.normal hv).1
    have hlen := BitSeq.value_length (h.seqs x)
    have hle := (h.seqs x).len_le
    have hroom := wSeq_le_overflow s.cfg
    obtain ⟨q, hq, hpacks⟩ := packBits_packs s.cfg (s.seq x).value s.packer h.packer.buffers (fun _ => hcur)
      (fun hv' => by rw [hv] at hv'; cases hv') (by omega)
    cases hq.symm.trans hpack
    exact .inr ⟨hv, p, hpacks, rfl⟩

/-- What PK_DRAINF leaves is a good packer in normal mode: the carried bits fill `P` from its start, everything else is 0
(R83). -/
theorem Packer.Ok.after_drainF {c : Config} {p q : Packer} (h : p.Ok c) (hv : p.ovf = true)
    (hq : p.clearP.carryBits p c 0 (p.cur - c.pbits) = some q) : (q.endOverflow.setCur (p.cur - c.pbits)).Ok c := by
  obtain ⟨-, hcur, -⟩ := h.cursor.overflow hv
  have hw := wSeq_le_overflow c
  have hfit := overflow_le_pbits c
  obtain ⟨q', hq', hb, -, -, -, -, hbit⟩ := carryBits_spec c p (p.cur - c.pbits) p.clearP 0
    ⟨rfl, h.buffers.wfO, by simp, h.buffers.insideO⟩ (by omega)
  cases hq'.symm.trans hq
  refine ⟨⟨fun _ => ⟨?_, rfl⟩, fun hv' => by cases hv'⟩, ?_, ⟨hb.wfP, rfl, hb.insideP, by simp⟩⟩
  · rw [cur_setCur]
    omega
  · rw [padz_iff]
    intro L hL _
    rw [cur_setCur] at hL
    by_cases hP : L < c.pbits
    · rw [logicalBit_primary c _ hP, setCur_P, endOverflow_P, hbit, if_neg (by omega), clearP_P, Memory.getBit_nil]
    · rw [logicalBit_overflow c _ (by omega), setCur_O, endOverflow_O, Memory.getBit_nil]

/-- In normal mode PK_DRAINP leaves the packer as reset does (R84). -/
theorem Packer.Ok.drainP_eq_reset {c : Config} {p : Packer} (h : p.Ok c) (hv : p.ovf = false) :
    p.clearP.setCur 0 = Packer.reset :=
  Packer.ext_cur (q := Packer.reset) rfl (overflow_nil (p := p) h hv) (cur_setCur _ 0) hv (h.cursor.normal hv).2

/-- Every command keeps the invariants. -/
theorem exec_keeps_inv {i : Instr} {s t : State} (h : Inv s) (ht : exec i s = .next t) : Inv t := by
  cases i with
  | sqClear d =>
    cases ht
    exact (h.setSeq d (BitSeq.empty_ok s.cfg)).respond _ _
  | sqAppend d b =>
    obtain ⟨-, rfl⟩ | ⟨-, q, hq, rfl⟩ := exec_sqAppend_next.mp ht
    · exact h.reject _
    · exact (h.setSeq d ((h.seqs d).append hq)).respond _ _
  | sqGet d k =>
    obtain ⟨-, rfl⟩ | ⟨-, b, -, rfl⟩ := exec_sqGet_next.mp ht
    · exact h.reject _
    · exact h.respond _ _
  | sqLen d =>
    cases ht
    exact h.respond _ _
  | sqClone d src =>
    cases ht
    exact (h.setSeq d (h.seqs src)).respond _ _
  | pkAppend x =>
    obtain ⟨-, rfl⟩ | ⟨hv, p, hp, rfl⟩ := exec_pkAppend_packs h ht
    · exact h.reject _
    · have hlen : (s.seq x).value.length ≤ s.cfg.wSeq := by
        rw [BitSeq.value_length (h.seqs x)]
        exact (h.seqs x).len_le
      exact (h.setPacker (hp.ok h.packer hv hlen)).respond _ _
  | pkHasOvf =>
    cases ht
    exact h.respond _ _
  | pkDrainF =>
    obtain ⟨hv, data, p, -, hp, rfl⟩ | ⟨-, rfl⟩ := exec_pkDrainF_next.mp ht
    · exact (h.setPacker (h.packer.after_drainF hv hp)).respond _ _
    · exact h.reject _
  | pkDrainP =>
    obtain ⟨-, rfl⟩ | ⟨hv, data, -, rfl⟩ := exec_pkDrainP_next.mp ht
    · exact h.reject _
    · rw [h.packer.drainP_eq_reset hv]
      exact (h.setPacker (reset_ok s.cfg)).respond _ _
  | pkIsEmpty =>
    cases ht
    exact h.respond _ _

/-- Performing a word, legal or not, keeps the invariants. -/
theorem perform_keeps_inv {w : Word} {s t : State} (h : Inv s) (ht : perform w s = .next t) : Inv t := by
  obtain ⟨i, -, hp⟩ | ⟨e, -, hp⟩ := perform_cases w s
  · exact exec_keeps_inv h (hp ▸ ht)
  · cases hp ▸ ht
    exact h.reject _

theorem step_keeps_inv {s t : State} (h : Inv s) (ht : step s = .next t) : Inv t := by
  obtain ⟨-, hs⟩ | ⟨w, rest, -, hs⟩ | ⟨rest, -, hs⟩ | ⟨w, rest, -, hs | hs⟩ := step_cases s
  · cases hs ▸ ht
    exact h
  · exact perform_keeps_inv h.nextCommand (hs ▸ ht)
  · cases hs ▸ ht
    exact inv_applyReset _
  · cases hs ▸ ht
    exact inv_applyReset _
  · obtain ⟨u, -, rfl⟩ := mapNext_eq_next.mp (hs ▸ ht)
    exact inv_applyReset u

/-- Settles O39: reset gives the empty registers and the empty packer, and each event's step keeps the invariants. -/
theorem everyStepKeepsTheInvariants : Obligations.EveryStepKeepsTheInvariants :=
  ⟨inv_resetOf, fun _ _ h ht => step_keeps_inv h ht⟩

/-! ### Overflow mode -/

section
variable {i : Instr} {s t : State}

/-- Only a PK_APPEND that runs past the primary buffer enters overflow mode (R26). -/
theorem exec_ovf_set (h : Inv s) (ht : exec i s = .next t) (hs : s.packer.ovf = false)
    (hv : t.packer.ovf = true) : ∃ x, i = .pkAppend x ∧ s.cfg.pbits < s.packer.cur + (s.seq x).len := by
  by_cases hi : (∃ x, i = .pkAppend x) ∨ i = .pkDrainF ∨ i = .pkDrainP
  · obtain ⟨x, rfl⟩ | rfl | rfl := hi
    · obtain ⟨-, rfl⟩ | ⟨-, p, hp, rfl⟩ := exec_pkAppend_packs h ht
      · simp [hs] at hv
      · have hovf := hp.ovf
        rw [respond_packer, setPacker_packer] at hv
        rw [hv, hs, BitSeq.value_length (h.seqs x)] at hovf
        exact ⟨x, rfl, by simpa using hovf⟩
    · obtain ⟨hs', -⟩ | ⟨-, rfl⟩ := exec_pkDrainF_next.mp ht
      · simp [hs] at hs'
      · simp [hs] at hv
    · obtain ⟨-, rfl⟩ | ⟨-, data, -, rfl⟩ := exec_pkDrainP_next.mp ht <;> simp [hs] at hv
  · rw [exec_packer_of_not_packer ht hi, hs] at hv
    cases hv

/-- Of the commands only PK_DRAINF leaves overflow mode (R26). -/
theorem exec_ovf_cleared (ht : exec i s = .next t) (hs : s.packer.ovf = true) (hv : t.packer.ovf = false) :
    i = .pkDrainF := by
  by_cases hi : (∃ x, i = .pkAppend x) ∨ i = .pkDrainF ∨ i = .pkDrainP
  · obtain ⟨x, rfl⟩ | rfl | rfl := hi
    · obtain ⟨-, rfl⟩ | ⟨hs', -⟩ := exec_pkAppend_next.mp ht
      · simp [hs] at hv
      · simp [hs] at hs'
    · rfl
    · obtain ⟨-, rfl⟩ | ⟨hs', -⟩ := exec_pkDrainP_next.mp ht
      · simp [hs] at hv
      · simp [hs] at hs'
  · rw [exec_packer_of_not_packer ht hi, hs] at hv
    cases hv

end

theorem perform_ovf_set {w : Word} {s t : State} (h : Inv s) (ht : perform w s = .next t)
    (hs : s.packer.ovf = false) (hv : t.packer.ovf = true) :
    ∃ x, decodeWord w = .ok (.pkAppend x) ∧ s.cfg.pbits < s.packer.cur + (s.seq x).len := by
  obtain ⟨i, hdec, hp⟩ | ⟨e, -, hp⟩ := perform_cases w s
  · obtain ⟨x, rfl, hpast⟩ := exec_ovf_set h (hp.symm.trans ht) hs hv
    exact ⟨x, hdec, hpast⟩
  · cases hp.symm.trans ht
    rw [reject_packer, hs] at hv
    cases hv

theorem perform_ovf_cleared {w : Word} {s t : State} (ht : perform w s = .next t) (hs : s.packer.ovf = true)
    (hv : t.packer.ovf = false) : decodeWord w = .ok .pkDrainF := by
  obtain ⟨i, hdec, hp⟩ | ⟨e, -, hp⟩ := perform_cases w s
  · cases exec_ovf_cleared (hp.symm.trans ht) hs hv
    exact hdec
  · cases hp.symm.trans ht
    rw [reject_packer, hs] at hv
    cases hv

/-- Settles O34: of the events a reset clears OVF, and a command changes it only as R26 says. -/
theorem ovfIsSetAndClearedOnlySo : Obligations.OvfIsSetAndClearedOnlySo := by
  intro s t h ht
  obtain ⟨-, hs⟩ | ⟨w, rest, hin, hs⟩ | ⟨rest, hin, hs⟩ | ⟨w, rest, hin, hs⟩ := step_cases s
  · cases hs.symm.trans ht
    exact ⟨fun h0 h1 => absurd (h0.symm.trans h1) (by decide), fun h1 h0 => absurd (h0.symm.trans h1) (by decide)⟩
  · refine ⟨fun h0 h1 => ?_, fun h1 h0 => .inl ⟨w, rest, hin, perform_ovf_cleared (hs.symm.trans ht) h1 h0⟩⟩
    obtain ⟨x, hdec, hpast⟩ := perform_ovf_set h.nextCommand (hs.symm.trans ht) h0 h1
    exact ⟨w, rest, x, hin, hdec, hpast⟩
  · cases hs.symm.trans ht
    exact ⟨fun _ h1 => absurd h1 Bool.false_ne_true, fun _ _ => .inr (.inl ⟨rest, hin⟩)⟩
  · have hv : t.packer = Packer.reset := by
      obtain hs | hs := hs
      · cases hs.symm.trans ht
        exact applyReset_packer _
      · obtain ⟨u, -, rfl⟩ := mapNext_eq_next.mp (hs.symm.trans ht)
        exact applyReset_packer u
    exact ⟨fun _ h1 => absurd (hv ▸ h1) (by decide), fun _ _ => .inr (.inr ⟨w, rest, hin⟩)⟩

/-- Settles O35: EMPTY is derived from the cursor, which CURSOR puts past a buffer of at least one byte in overflow mode. -/
theorem emptyIsCursorZero : Obligations.EmptyIsCursorZero := by
  refine fun s => ⟨by simp [Packer.empty], rfl, fun h hv => ?_⟩
  obtain ⟨hpast, -, -⟩ := h.packer.cursor.overflow hv
  exact ⟨hpast, pbits_pos s.cfg, by simp [Packer.empty]; omega⟩

/-- Settles O2: the registers are empty sequences, and the packer is the one with no byte listed. -/
theorem resetValues : Obligations.ResetValues := by
  refine ⟨⟨rfl, rfl⟩, fun c => ⟨fun r => ?_, fun _ _ => rfl, fun _ _ => rfl, rfl, rfl, rfl, rfl, rfl, rfl, rfl⟩⟩
  rw [resetOf_seq]
  exact ⟨rfl, fun i hi => (BitSeq.empty_ok c).seqz i (Nat.zero_le i) hi⟩

/-! ### Widths of the fields -/

theorem lt_two_pow_clog {a b : Nat} (h : a ≤ b) : a < 2 ^ Nat.clog 2 (b + 1) :=
  Nat.lt_of_lt_of_le (Nat.lt_succ_of_le h) (Nat.le_pow_clog (by decide) _)

/-- In both modes at most W_SEQ bits stand past the primary buffer (R31). -/
theorem Packer.CursorOk.cur_le {c : Config} {p : Packer} (h : p.CursorOk c) : p.cur ≤ c.pbits + c.wSeq := by
  cases hv : p.ovf with
  | false => exact Nat.le_add_right_of_le (h.normal hv).1
  | true => exact (h.overflow hv).2.1

theorem Packer.CursorOk.byteIdx_le {c : Config} {p : Packer} (h : p.CursorOk c) :
    p.byteIdx ≤ c.capBytes + c.wSeq / 8 := by
  have hcur := h.cur_le
  simp only [Packer.cur, Config.pbits] at hcur
  omega

theorem Packer.CursorOk.osize_le {c : Config} {p : Packer} (h : p.CursorOk c) : p.osize ≤ c.ocapBytes := by
  cases hv : p.ovf with
  | false => exact (h.normal hv).2 ▸ Nat.zero_le _
  | true =>
    obtain ⟨-, hcur, hsize⟩ := h.overflow hv
    have hw := wSeq_le_overflow c
    rw [hsize, divUp_le_iff]
    omega

/-- A buffer reads 0x00 at an address it does not have. -/
theorem Memory.read_outside {m : Memory} {size a : Nat} (h : ∀ x ∈ m, x.1 < size) (ha : size ≤ a) : m.read a = 0 :=
  Memory.read_of_not_mem fun x hx => Nat.ne_of_lt (Nat.lt_of_lt_of_le (h x hx) ha)

/-- Settles O37: CURSOR bounds the cursor and OSIZE, and each width is the logarithm of its bound. -/
theorem stateFitsTheStorageBound : Obligations.StateFitsTheStorageBound := by
  intro s h
  have hbyte := h.packer.cursor.byteIdx_le
  have hosize := h.packer.cursor.osize_le
  refine ⟨hbyte, lt_two_pow_clog hbyte, hosize, lt_two_pow_clog hosize, fun r => ⟨?_, (h.seqs r).cells⟩,
    fun a => Memory.read_outside h.packer.buffers.insideP, fun k => Memory.read_outside h.packer.buffers.insideO⟩
  have hlen := (h.seqs r).len_le
  have hw := s.cfg.wSeq_le
  omega

/-! ### Registers read and written (R23) -/

/-- The state with another register file. -/
def State.withSeqs (s : State) (v : Vector BitSeq 16) : State := { s with seqs := v }

@[simp] theorem withSeqs_seq (s : State) (v : Vector BitSeq 16) (r : Reg) : (s.withSeqs v).seq r = v.get r := rfl

/-- A command that answers `t` answers `t'` from the register file `v`: the same but for the registers it does not write. -/
structure SameEffect (i : Instr) (v : Vector BitSeq 16) (t t' : State) : Prop where
  packer : t'.packer = t.packer
  responses : t'.responses = t.responses
  written : ∀ r, writesReg i r = true → t'.seq r = t.seq r
  unwritten : ∀ r, writesReg i r = false → t'.seq r = v.get r

/-- Writing one value to the one register a command writes. -/
theorem sameEffect_setSeq {i : Instr} {d : Reg} (hw : ∀ r, writesReg i r = (r == d)) (s : State) (v : Vector BitSeq 16)
    (q : BitSeq) : SameEffect i v ((s.setSeq d q).respond 0 []) (((s.withSeqs v).setSeq d q).respond 0 []) := by
  refine ⟨rfl, rfl, fun r hr => ?_, fun r hr => ?_⟩ <;> rw [hw] at hr
  · cases eq_of_beq hr
    simp
  · rw [respond_seq, seq_setSeq_other _ _ _ (ne_of_beq_false hr), withSeqs_seq]

/-- Answering without writing a register: a register the command could have written must agree from the start. -/
theorem sameEffect_withSeqs {i : Instr} {t : State} {v : Vector BitSeq 16}
    (hw : ∀ r, writesReg i r = true → v.get r = t.seq r) : SameEffect i v t (t.withSeqs v) :=
  ⟨rfl, rfl, hw, fun _ _ => rfl⟩

/-- A command that writes no register gives, from a register file that agrees on what it reads, the same next state with
that file. -/
theorem exec_withSeqs_of_unwritten {i : Instr} {s t : State} {v : Vector BitSeq 16} (hw : ∀ r, writesReg i r = false)
    (hv : ∀ r, readsReg i r = true → v.get r = s.seq r) (h : exec i s = .next t) :
    exec i (s.withSeqs v) = .next (t.withSeqs v) := by
  cases i with
  | sqClear d => simpa [writesReg] using hw d
  | sqAppend d b => simpa [writesReg] using hw d
  | sqClone d src => simpa [writesReg] using hw d
  | sqGet d k =>
    have hd := hv d (by simp [readsReg])
    rw [exec_sqGet_next, withSeqs_seq, hd]
    obtain ⟨hle, rfl⟩ | ⟨hlt, b, hb, rfl⟩ := exec_sqGet_next.mp h
    · exact .inl ⟨hle, rfl⟩
    · exact .inr ⟨hlt, b, hb, rfl⟩
  | sqLen d =>
    have hd := hv d (by simp [readsReg])
    cases h
    simp only [exec, execSqLen, withSeqs_seq, hd]
    rfl
  | pkAppend x =>
    have hx := hv x (by simp [readsReg])
    rw [exec_pkAppend_next, withSeqs_seq, hx]
    obtain ⟨ho, rfl⟩ | ⟨ho, bits, p, hread, hpack, rfl⟩ := exec_pkAppend_next.mp h
    · exact .inl ⟨ho, rfl⟩
    · exact .inr ⟨ho, bits, p, hread, hpack, rfl⟩
  | pkHasOvf =>
    cases h
    rfl
  | pkDrainF =>
    rw [exec_pkDrainF_next]
    obtain ⟨ho, data, p, hdata, hcarry, rfl⟩ | ⟨ho, rfl⟩ := exec_pkDrainF_next.mp h
    · exact .inl ⟨ho, data, p, hdata, hcarry, rfl⟩
    · exact .inr ⟨ho, rfl⟩
  | pkDrainP =>
    rw [exec_pkDrainP_next]
    obtain ⟨ho, rfl⟩ | ⟨ho, data, hdata, rfl⟩ := exec_pkDrainP_next.mp h
    · exact .inl ⟨ho, rfl⟩
    · exact .inr ⟨ho, data, hdata, rfl⟩
  | pkIsEmpty =>
    cases h
    rfl

/-- The commands that write a register (R23). -/
theorem writesReg_cases (i : Instr) : (∀ r, writesReg i r = false) ∨
    (∃ d, i = .sqClear d) ∨ (∃ d b, i = .sqAppend d b) ∨ ∃ d src, i = .sqClone d src := by
  cases i <;> simp [writesReg]

/-- From a register file that agrees on what the command reads, it answers too, with the same effect. -/
theorem exec_withSeqs {i : Instr} {s t : State} {v : Vector BitSeq 16}
    (hv : ∀ r, readsReg i r = true → v.get r = s.seq r) (h : exec i s = .next t) :
    ∃ t', exec i (s.withSeqs v) = .next t' ∧ SameEffect i v t t' := by
  obtain hw | ⟨d, rfl⟩ | ⟨d, b, rfl⟩ | ⟨d, src, rfl⟩ := writesReg_cases i
  · exact ⟨_, exec_withSeqs_of_unwritten hw hv h, sameEffect_withSeqs fun r hr => absurd (hw r) (by simp [hr])⟩
  · cases h
    exact ⟨_, rfl, sameEffect_setSeq (fun _ => rfl) s v _⟩
  · have hd := hv d (by simp [readsReg])
    obtain ⟨hfull, rfl⟩ | ⟨hroom, q, hq, rfl⟩ := exec_sqAppend_next.mp h
    · exact ⟨_, exec_sqAppend_next.mpr (.inl ⟨by rwa [withSeqs_seq, hd], rfl⟩), sameEffect_withSeqs hv⟩
    · exact ⟨_, exec_sqAppend_next.mpr (.inr ⟨by rwa [withSeqs_seq, hd], q, by rwa [withSeqs_seq, hd], rfl⟩),
        sameEffect_setSeq (fun _ => rfl) s v q⟩
  · have hsrc := hv src (by simp [readsReg])
    cases h
    refine ⟨_, rfl, ?_⟩
    rw [withSeqs_seq, hsrc]
    exact sameEffect_setSeq (fun _ => rfl) s v _

/-- Settles O30: the frame of the command, and its effect carried over to the other register file. -/
theorem registersReadAndWritten : Obligations.RegistersReadAndWritten := by
  intro i s t v hv h
  obtain ⟨t', ht', heff⟩ := exec_withSeqs hv h
  exact ⟨fun r => exec_seq_of_not_writes h, t', ht', heff.packer, heff.responses, heff.written, heff.unwritten⟩

/-! ### OSIZE is not observable (R29) -/

section
variable (p : Packer) (c : Config) (n : Nat)

@[simp] theorem withOsize_cur : (p.withOsize n).cur = p.cur := rfl

theorem putP_withOsize (L : Nat) (b : Bool) : (p.withOsize n).putP c L b = (p.putP c L b).map (·.withOsize n) := by
  unfold Packer.putP
  split <;> rfl

theorem putO_withOsize (L : Nat) (b : Bool) : (p.withOsize n).putO c L b = (p.putO c L b).map (·.withOsize n) := by
  unfold Packer.putO
  split <;> rfl

/-- Entering overflow mode gives OSIZE a value of its own; in overflow mode already, the old one stays. -/
theorem exists_enterOverflow_withOsize (x : Nat) :
    ∃ m, (p.withOsize n).enterOverflow x = (p.enterOverflow x).withOsize m := by
  cases hv : p.ovf with
  | false => exact ⟨divUp x 8, by simp [Packer.enterOverflow, Packer.withOsize, hv]⟩
  | true => exact ⟨n, by simp [Packer.enterOverflow, Packer.withOsize, hv]⟩
end

/-- The packing loop never reads OSIZE. -/
theorem packBits_withOsize (c : Config) (bits : List Bool) (p : Packer) (n : Nat) :
    ((p.withOsize n).packBits c bits).map (·.withOsize 0) = (p.packBits c bits).map (·.withOsize 0) := by
  induction bits generalizing p n with
  | nil => rfl
  | cons b rest ih =>
    rw [Packer.packBits, Packer.packBits, withOsize_cur]
    split
    · rw [putP_withOsize]
      cases p.putP c p.cur b with
      | none => rfl
      | some q => exact ih (q.setCur (p.cur + 1)) n
    · obtain ⟨m, hm⟩ := exists_enterOverflow_withOsize p n (rest.length + 1)
      rw [hm, putO_withOsize]
      cases (p.enterOverflow (rest.length + 1)).putO c p.cur b with
      | none => rfl
      | some q => exact ih (q.setCur (p.cur + 1)) m

/-- The carrying loop neither reads nor writes OSIZE. -/
theorem carryBits_withOsize (c : Config) (src p : Packer) (n k len : Nat) :
    (p.withOsize n).carryBits (src.withOsize n) c k len = (p.carryBits src c k len).map (·.withOsize n) := by
  induction len generalizing p k with
  | zero => rfl
  | succ len ih =>
    rw [Packer.carryBits, Packer.carryBits,
      show (src.withOsize n).getO c (c.pbits + k) = src.getO c (c.pbits + k) from rfl]
    cases src.getO c (c.pbits + k) with
    | none => rfl
    | some b =>
      rw [Option.bind_some, Option.bind_some, putP_withOsize]
      cases p.putP c k b with
      | none => rfl
      | some q => exact ih q (k + 1)

/-- A check whose two branches give the same outcomes. -/
theorem mapNext_ite_congr {f : State → State} {p : Prop} [Decidable p] {a b a' b' : Host.Outcome State Fault Refusal}
    (ha : mapNext f a' = mapNext f a) (hb : mapNext f b' = mapNext f b) :
    mapNext f (if p then a' else b') = mapNext f (if p then a else b) := by
  split <;> assumption

theorem mapNext_orNoSuchCell_congr {f : State → State} {o o' : Option State} (h : o'.map f = o.map f) :
    mapNext f (orNoSuchCell o') = mapNext f (orNoSuchCell o) := by
  have hmap : ∀ x : Option State, mapNext f (orNoSuchCell x) = orNoSuchCell (x.map f) := by
    intro x
    cases x <;> rfl
  rw [hmap, hmap, h]

/-- Settles O31: the two loops do not read OSIZE, and no other part of a command touches it. -/
theorem osizeIsNotObservable : Obligations.OsizeIsNotObservable := by
  intro i s n
  cases i with
  | sqClear d => rfl
  | sqAppend d b =>
    refine mapNext_ite_congr rfl (mapNext_orNoSuchCell_congr ?_)
    rw [Option.map_map, Option.map_map]
    rfl
  | sqGet d k =>
    refine mapNext_ite_congr rfl (mapNext_orNoSuchCell_congr ?_)
    rw [Option.map_map, Option.map_map]
    rfl
  | sqLen d => rfl
  | sqClone d src => rfl
  | pkAppend x =>
    refine mapNext_ite_congr rfl (mapNext_orNoSuchCell_congr ?_)
    rw [Option.map_bind, Option.map_bind]
    refine congrArg (Option.bind _) (funext fun bits => ?_)
    have hloop := congrArg (Option.map fun p => (s.setPacker p).respond 0 []) (packBits_withOsize s.cfg bits s.packer n)
    rw [Option.map_map, Option.map_map] at hloop
    simp only [Function.comp_apply, Option.map_map]
    exact hloop
  | pkHasOvf => rfl
  | pkDrainF =>
    refine mapNext_ite_congr (mapNext_orNoSuchCell_congr ?_) rfl
    rw [Option.map_bind, Option.map_bind]
    refine congrArg (Option.bind _) (funext fun data => ?_)
    have hloop := congrArg
      (Option.map fun p => ((s.setPacker (p.endOverflow.setCur (s.packer.cur - s.cfg.pbits))).respond 0 data).withOsize 0)
      (carryBits_withOsize s.cfg s.packer s.packer.clearP n 0 (s.packer.cur - s.cfg.pbits))
    rw [Option.map_map] at hloop
    simp only [Function.comp_apply, Option.map_map]
    exact hloop
  | pkDrainP =>
    refine mapNext_ite_congr rfl (mapNext_orNoSuchCell_congr ?_)
    rw [Option.map_map, Option.map_map]
    rfl
  | pkIsEmpty => rfl

/-! ### Cells at or past the length are not observable (R24) -/

namespace BitSeq.SameValue

variable {c : Config} {q q' : BitSeq}

theorem of_cells (hc : q.bits.length = c.wSeq) (hlen : q.len ≤ c.wSeq) : q.SameValue c q := ⟨hc, hc, hlen, rfl, rfl⟩

theorem read_eq (h : q.SameValue c q') : q'.read = q.read := by
  have hlen := h.len_le
  simp only [BitSeq.read, h.cells, h.cells', ← h.len, h.value]

/-- Below the length the two registers have the same cells. -/
theorem getBit_eq (h : q.SameValue c q') {i : Nat} (hi : i < q.len) : q'.getBit i = q.getBit i := by
  have hbit := congrArg (·[i]?) h.value
  simp only [BitSeq.value, ← h.len, List.getElem?_take_of_lt hi] at hbit
  exact hbit.symm

end BitSeq.SameValue

theorem BitSeq.value_append {q r : BitSeq} {b : Bool} (h : q.append b = some r) : r.value = q.value ++ [b] := by
  obtain ⟨hlt, rfl⟩ := BitSeq.append_eq_some.mp h
  simp only [value, List.take_add_one, List.take_set_of_le (Nat.le_refl _), List.getElem?_set_self hlt]
  rfl

/-- One bit more on two registers with one value gives two registers with one value. -/
theorem BitSeq.SameValue.append {c : Config} {q q' r : BitSeq} {b : Bool} (h : q.SameValue c q')
    (hr : q.append b = some r) : ∃ r', q'.append b = some r' ∧ r.SameValue c r' := by
  obtain ⟨hlt, rfl⟩ := BitSeq.append_eq_some.mp hr
  have hr' : q'.append b = some ⟨q'.len + 1, q'.bits.set q'.len b⟩ :=
    BitSeq.append_eq_some.mpr ⟨by rwa [h.cells', ← h.len, ← h.cells], rfl⟩
  refine ⟨_, hr', ?_⟩
  exact {
    cells := by rw [List.length_set, h.cells]
    cells' := by rw [List.length_set, h.cells']
    len_le := h.cells ▸ hlt
    len := by rw [h.len]
    value := by rw [value_append hr, value_append hr', h.value] }

section
variable {s s' : State}

theorem SameValues.respond (h : SameValues s s') (v : Byte) (data : List Byte) :
    SameValues (s.respond v data) (s'.respond v data) :=
  ⟨h.cfg, h.seqs, h.packer, h.inbox, h.pos, congrArg (· ++ _) h.responses⟩

theorem SameValues.reject (h : SameValues s s') (st : Status) : SameValues (s.reject st) (s'.reject st) :=
  ⟨h.cfg, h.seqs, h.packer, h.inbox, h.pos, congrArg (· ++ _) h.responses⟩

theorem SameValues.setPacker (h : SameValues s s') (p : Packer) : SameValues (s.setPacker p) (s'.setPacker p) :=
  ⟨h.cfg, h.seqs, rfl, h.inbox, h.pos, h.responses⟩

theorem SameValues.setSeq (h : SameValues s s') (d : Reg) {q q' : BitSeq} (hq : q.SameValue s.cfg q') :
    SameValues (s.setSeq d q) (s'.setSeq d q') := by
  refine ⟨h.cfg, fun r => ?_, h.packer, h.inbox, h.pos, h.responses⟩
  rw [seq_setSeq, seq_setSeq, setSeq_cfg]
  split
  · exact hq
  · exact h.seqs r

end

/-- Settles O32: a command sees a register through its length, its value and the cells below the length. -/
theorem bitsBeyondTheLengthAreNotObservable : Obligations.BitsBeyondTheLengthAreNotObservable := by
  intro i s s' t h ht
  cases i with
  | sqClear d =>
    cases ht
    have hempty := BitSeq.empty_ok s.cfg
    refine ⟨_, rfl, ?_⟩
    rw [← h.cfg]
    exact (h.setSeq d (.of_cells hempty.cells hempty.len_le)).respond _ _
  | sqAppend d b =>
    rw [exec_sqAppend_next] at ht
    simp only [exec_sqAppend_next, ← h.cfg, ← (h.seqs d).len]
    obtain ⟨hfull, rfl⟩ | ⟨hroom, q, hq, rfl⟩ := ht
    · exact ⟨_, .inl ⟨hfull, rfl⟩, h.reject _⟩
    · obtain ⟨q', hq', hsame⟩ := (h.seqs d).append hq
      exact ⟨_, .inr ⟨hroom, q', hq', rfl⟩, (h.setSeq d hsame).respond _ _⟩
  | sqGet d k =>
    rw [exec_sqGet_next] at ht
    simp only [exec_sqGet_next, ← (h.seqs d).len]
    obtain ⟨hle, rfl⟩ | ⟨hlt, b, hb, rfl⟩ := ht
    · exact ⟨_, .inl ⟨hle, rfl⟩, h.reject _⟩
    · exact ⟨_, .inr ⟨hlt, b, ((h.seqs d).getBit_eq hlt).trans hb, rfl⟩, h.respond _ _⟩
  | sqLen d =>
    cases ht
    refine ⟨_, rfl, ?_⟩
    rw [← (h.seqs d).len]
    exact h.respond _ _
  | sqClone d src =>
    cases ht
    exact ⟨_, rfl, (h.setSeq d (h.seqs src)).respond _ _⟩
  | pkAppend x =>
    rw [exec_pkAppend_next] at ht
    simp only [exec_pkAppend_next, ← h.cfg, ← h.packer, (h.seqs x).read_eq]
    obtain ⟨ho, rfl⟩ | ⟨ho, bits, p, hread, hpack, rfl⟩ := ht
    · exact ⟨_, .inl ⟨ho, rfl⟩, h.reject _⟩
    · exact ⟨_, .inr ⟨ho, bits, p, hread, hpack, rfl⟩, (h.setPacker p).respond _ _⟩
  | pkHasOvf =>
    cases ht
    refine ⟨_, rfl, ?_⟩
    rw [← h.packer]
    exact h.respond _ _
  | pkDrainF =>
    rw [exec_pkDrainF_next] at ht
    simp only [exec_pkDrainF_next, ← h.cfg, ← h.packer]
    obtain ⟨ho, data, p, hdata, hcarry, rfl⟩ | ⟨ho, rfl⟩ := ht
    · exact ⟨_, .inl ⟨ho, data, p, hdata, hcarry, rfl⟩, (h.setPacker _).respond _ _⟩
    · exact ⟨_, .inr ⟨ho, rfl⟩, h.reject _⟩
  | pkDrainP =>
    rw [exec_pkDrainP_next] at ht
    simp only [exec_pkDrainP_next, ← h.cfg, ← h.packer]
    obtain ⟨ho, rfl⟩ | ⟨ho, data, hdata, rfl⟩ := ht
    · exact ⟨_, .inl ⟨ho, rfl⟩, h.reject _⟩
    · exact ⟨_, .inr ⟨ho, data, hdata, rfl⟩, (h.setPacker _).respond _ _⟩
  | pkIsEmpty =>
    cases ht
    refine ⟨_, rfl, ?_⟩
    rw [← h.packer]
    exact h.respond _ _

end Sys2Proof.Machine

/-! PROOFS. The address space of the buffers and the order of their bits (spec/20_memory.md): where a logical bit stands, what
the drains return of the held bits, and which commands read destructively. -/

namespace Sys2Proof

/-! ### A command's word decodes to the command -/

/-- The decoder on a word put together from its fields (R59). -/
theorem decodeWord_of_fields {w : Word} {op ra imm : Nat} (hra : ra < 16) (himm : imm < 256)
    (hw : w.toNat = 4096 * op + 256 * ra + imm) : decodeWord w = decodeFields op ra imm := by
  rw [decodeWord_eq_fields, show w.toNat / 4096 = op by omega, show w.toNat / 256 % 16 = ra by omega,
    show w.toNat % 256 = imm by omega]

theorem raBits_toNat (r : Reg) : (raBits r).toNat = 256 * r.val := by
  simp only [raBits, BitVec.toNat_ofNat, Nat.shiftLeft_eq]
  omega

/-- The fields of a word do not overlap, so their OR is their sum. -/
theorem toNat_or_fields {op imm : Nat} (r : Reg) (hop : op < 16) (himm : imm < 256) :
    (BitVec.ofNat 16 (4096 * op) ||| raBits r ||| BitVec.ofNat 16 imm).toNat = 4096 * op + 256 * r.val + imm := by
  have hhigh : 4096 * op ||| 256 * r.val = 4096 * op + 256 * r.val :=
    (Nat.two_pow_add_eq_or_of_lt (i := 12) (by omega) op).symm
  have hlow : 256 * (16 * op + r.val) ||| imm = 256 * (16 * op + r.val) + imm :=
    (Nat.two_pow_add_eq_or_of_lt (i := 8) himm (16 * op + r.val)).symm
  rw [BitVec.toNat_or, BitVec.toNat_or, raBits_toNat, BitVec.toNat_ofNat, BitVec.toNat_ofNat,
    Nat.mod_eq_of_lt (by omega), Nat.mod_eq_of_lt (by omega), hhigh,
    show 4096 * op + 256 * r.val = 256 * (16 * op + r.val) by omega, hlow]

theorem decodeWord_or_fields {op imm : Nat} (r : Reg) (hop : op < 16) (himm : imm < 256) :
    decodeWord (BitVec.ofNat 16 (4096 * op) ||| raBits r ||| BitVec.ofNat 16 imm) = decodeFields op r.val imm :=
  decodeWord_of_fields r.isLt himm (toNat_or_fields r hop himm)

theorem decodeWord_or_register {op : Nat} (r : Reg) (hop : op < 16) :
    decodeWord (BitVec.ofNat 16 (4096 * op) ||| raBits r) = decodeFields op r.val 0 := by
  simpa using decodeWord_or_fields (imm := 0) r hop (by omega)

/-- The decoder reads back what the encoder wrote (R69). -/
theorem decodeWord_encode (i : Instr) : decodeWord (encode i) = .ok i := by
  cases i with
  | sqClear d => simpa [encode, decodeFields] using decodeWord_or_register (op := 1) d (by decide)
  | sqAppend d b =>
    have h := decodeWord_or_fields (op := 2) (imm := b.toNat) d (by decide) (by cases b <;> decide)
    cases b <;> simpa [encode, decodeFields] using h
  | sqGet d k =>
    have h := decodeWord_or_fields (op := 3) d (by decide) k.isLt
    simpa [encode, decodeFields] using h
  | sqLen d => simpa [encode, decodeFields] using decodeWord_or_register (op := 4) d (by decide)
  | sqClone d src =>
    have h := decodeWord_or_fields (op := 5) (imm := src.val) d (by decide) (by omega)
    simpa [encode, decodeFields] using h
  | pkAppend src => simpa [encode, decodeFields] using decodeWord_or_register (op := 8) src (by decide)
  | pkHasOvf => decide
  | pkDrainF => decide
  | pkDrainP => decide
  | pkIsEmpty => decide

namespace Machine

/-- Issuing a command's word performs the command at the next position. -/
theorem issued_encode {i : Instr} {s t : State} (h : exec i s.advance = .next t) : issued (encode i) s = some t := by
  simp only [issued, issue_eq, perform_of_decode_ok (decodeWord_encode i), h]

theorem issueAll_encode_pair {i j : Instr} {s t u : State} (ht : exec i s.advance = .next t)
    (hu : exec j t.advance = .next u) : issueAll [encode i, encode j] s = some u := by
  simp only [issueAll, issued_encode ht, issued_encode hu, Option.bind_some]

theorem Inv.advance {s : State} (h : Inv s) : Inv s.advance := ⟨h.seqs, h.packer⟩

/-! ### Where a logical bit stands -/

/-- Settles O36: the buffers' accessors are the bit of R42 at its address, and a bit written is read back there alone. -/
theorem logicalBitAddressing : Obligations.LogicalBitAddressing := by
  refine ⟨fun p c L hL => getP_some c p hL, fun p c L hL hL' => getO_some c p hL hL', ?_, ?_⟩
  · intro p c L b hb hL
    exact ⟨_, putP_some c p hL b, rfl, rfl, rfl, rfl, buffersOk_putP c p hb hL b,
      Memory.getBit_putBit hb.wfP L b⟩
  · intro p c L b hb hL hL'
    exact ⟨_, putO_some c p hL hL' b, rfl, rfl, rfl, rfl, buffersOk_putO c p hb (by omega) b,
      Memory.getBit_putBit hb.wfO (L - c.pbits) b⟩

/-! ### What the packer's commands answer from a good state -/

section
variable {s : State}

/-- In normal mode PK_APPEND packs the register's value (R81). -/
theorem exec_pkAppend_normal (h : Inv s) (hv : s.packer.ovf = false) (x : Reg) :
    ∃ p, exec (.pkAppend x) s = .next ((s.setPacker p).respond 0 []) ∧ Packs s.cfg s.packer (s.seq x).value p := by
  have hcur := (h.packer.cursor.normal hv).1
  have hroom : s.packer.cur + (s.seq x).value.length ≤ s.cfg.pbits + 8 * s.cfg.ocapBytes := by
    rw [BitSeq.value_length (h.seqs x)]
    have := (h.seqs x).len_le
    have := wSeq_le_overflow s.cfg
    omega
  obtain ⟨p, hp, hpacks⟩ := packBits_packs s.cfg (s.seq x).value s.packer h.packer.buffers (fun _ => hcur)
    (by simp [hv]) hroom
  exact ⟨p, exec_pkAppend_next.mpr (.inr ⟨hv, _, p, BitSeq.read_ok (h.seqs x), hp, rfl⟩), hpacks⟩

/-- In overflow mode PK_DRAINF returns all bytes of `P` and leaves the overflow buffer's bits at the start of `P`, in normal
mode (R83). -/
theorem exec_pkDrainF_overflow (h : Inv s) (hv : s.packer.ovf = true) :
    ∃ p : Packer, exec .pkDrainF s =
        .next ((s.setPacker p).respond 0 ((List.range s.cfg.capBytes).map s.packer.P.read)) ∧
      p.ovf = false ∧ p.cur = s.packer.cur - s.cfg.pbits ∧
      ∀ k < s.packer.cur - s.cfg.pbits, p.P.getBit k = s.packer.O.getBit k := by
  obtain ⟨-, hcur, -⟩ := h.packer.cursor.overflow hv
  have hw := wSeq_le_overflow s.cfg
  have hclear : s.packer.clearP.BuffersOk s.cfg := ⟨rfl, h.packer.buffers.wfO, by simp, h.packer.buffers.insideO⟩
  obtain ⟨q, hq, -, -, -, -, -, hbit⟩ :=
    carryBits_spec s.cfg s.packer (s.packer.cur - s.cfg.pbits) s.packer.clearP 0 hclear (by omega)
  refine ⟨q.endOverflow.setCur (s.packer.cur - s.cfg.pbits),
    exec_pkDrainF_next.mpr (.inl ⟨hv, _, q, Memory.readBytes_zero (Nat.le_refl _), hq, rfl⟩), rfl, cur_setCur _ _, ?_⟩
  intro k hk
  rw [setCur_P, endOverflow_P, hbit, if_pos (by omega)]

/-- In normal mode PK_DRAINP returns the bytes written so far and leaves the packer of reset (R84). -/
theorem exec_pkDrainP_normal (h : Inv s) (hv : s.packer.ovf = false) :
    exec .pkDrainP s =
      .next ((s.setPacker Packer.reset).respond 0 ((List.range (divUp s.packer.cur 8)).map s.packer.P.read)) := by
  have hsize : divUp s.packer.cur 8 ≤ s.cfg.capBytes := (divUp_le_iff _ _).mpr (h.packer.cursor.normal hv).1
  rw [← h.packer.drainP_eq_reset hv]
  exact exec_pkDrainP_next.mpr (.inr ⟨hv, _, Memory.readBytes_zero hsize, rfl⟩)

/-- PK_DRAINP of the empty packer returns no bytes and changes nothing (R84). -/
theorem exec_pkDrainP_reset (hp : s.packer = Packer.reset) : exec .pkDrainP s = .next (s.respond 0 []) := by
  have hdata : s.packer.P.readBytes s.cfg.capBytes 0 (divUp s.packer.cur 8) = some [] := by
    rw [hp]
    exact Memory.readBytes_zero (Nat.zero_le _)
  have hsame : s.setPacker (s.packer.clearP.setCur 0) = s := by
    rw [hp, State.setPacker, show Packer.reset.clearP.setCur 0 = s.packer from hp.symm]
  exact exec_pkDrainP_next.mpr (.inr ⟨by rw [hp]; rfl, [], hdata, by rw [hsame]⟩)

theorem exec_pkDrainF_normal (hv : s.packer.ovf = false) : exec .pkDrainF s = .next (s.reject .noOverflow) :=
  exec_pkDrainF_next.mpr (.inr ⟨hv, rfl⟩)

/-- A query adds one response, which depends on the block alone, and changes nothing else (R51). -/
theorem exec_query_adds_response {i : Instr} (h : Inv s) (hq : isQuery i = true) :
    ∃ r, ∀ t : State, t.block = s.block → exec i t = .next { t with responses := t.responses ++ [r] } := by
  have hseq {t : State} (ht : t.block = s.block) (d : Reg) : t.seq d = s.seq d :=
    congrArg (fun b : Block => b.seqs.get d) ht
  have hpacker {t : State} (ht : t.block = s.block) : t.packer = s.packer := congrArg Block.packer ht
  cases i with
  | sqGet d k =>
    by_cases hk : k.toNat < (s.seq d).len
    · refine ⟨⟨.ok, zext8 ((s.seq d).value.getD k.toNat false), []⟩, fun t ht =>
        exec_sqGet_next.mpr (.inr ⟨by rwa [hseq ht], _, ?_, rfl⟩)⟩
      rw [hseq ht, BitSeq.getBit_of_lt (h.seqs d) hk]
    · exact ⟨_, fun t ht => exec_sqGet_next.mpr (.inl ⟨by rw [hseq ht]; omega, rfl⟩)⟩
  | sqLen d => exact ⟨⟨.ok, BitVec.ofNat 8 (s.seq d).len, []⟩, fun t ht => by rw [← hseq ht]; rfl⟩
  | pkHasOvf => exact ⟨⟨.ok, s.packer.ovfVal, []⟩, fun t ht => by rw [← hpacker ht]; rfl⟩
  | pkIsEmpty => exact ⟨⟨.ok, s.packer.emptyVal, []⟩, fun t ht => by rw [← hpacker ht]; rfl⟩
  | sqClear | sqAppend | sqClone | pkAppend | pkDrainF | pkDrainP => cases hq

end

/-! ### Destructive reads and queries -/

/-- Settles O33: the first drain leaves the packer empty, or in normal mode, and a query leaves the block as it was. -/
theorem drainsAreDestructiveAndQueriesAreNot : Obligations.DrainsAreDestructiveAndQueriesAreNot := by
  refine ⟨fun s h hv => ?_, fun s h hv => ?_, fun i s h hq => ?_⟩
  · have hfirst := exec_pkDrainP_normal h.advance hv
    exact ⟨_, _, issueAll_encode_pair hfirst (exec_pkDrainP_reset rfl), List.append_assoc _ _ _⟩
  · obtain ⟨p, hfirst, hnormal, -, -⟩ := exec_pkDrainF_overflow h.advance hv
    exact ⟨_, _, issueAll_encode_pair hfirst (exec_pkDrainF_normal hnormal), List.append_assoc _ _ _⟩
  · obtain ⟨r, hr⟩ := exec_query_adds_response h hq
    exact ⟨_, r, issueAll_encode_pair (hr _ rfl) (hr _ rfl), rfl, List.append_assoc _ _ _⟩

/-! ### Drain data and the held bits -/

/-- The bits of a buffer's first bytes are its first bits: MSB-first within each byte (R42, R44). -/
theorem bitsOfBytes_read (m : Memory) (n : Nat) :
    bitsOfBytes ((List.range n).map m.read) = (List.range (8 * n)).map m.getBit := by
  induction n with
  | zero => rfl
  | succ n ih =>
    have hbyte : bitsOfBytes [m.read n] = (List.range 8).map fun i => m.getBit (8 * n + i) := by
      simp only [bitsOfBytes, List.flatMap_cons, List.flatMap_nil, List.append_nil, Memory.getBit]
      refine List.map_congr_left fun i hi => ?_
      have hi := List.mem_range.mp hi
      rw [show (8 * n + i) / 8 = n by omega, show (8 * n + i) % 8 = i by omega]
    calc bitsOfBytes ((List.range (n + 1)).map m.read)
        = bitsOfBytes ((List.range n).map m.read) ++ bitsOfBytes [m.read n] := by
          rw [List.range_succ, List.map_append, bitsOfBytes, List.flatMap_append]; rfl
      _ = (List.range (8 * (n + 1))).map m.getBit := by
          rw [ih, hbyte, Nat.mul_succ, List.range_add, List.map_append, List.map_map]; rfl

section
variable {c : Config} {p : Packer}

/-- With the cursor inside the primary buffer the held bits are its first ones. -/
theorem heldBits_primary (h : p.cur ≤ c.pbits) : p.heldBits c = (List.range p.cur).map p.P.getBit :=
  List.map_congr_left fun _ hL =>
    logicalBit_primary c p (Nat.lt_of_lt_of_le (List.mem_range.mp hL) h)

/-- With the cursor past the primary buffer the held bits are all its bits and then the overflow buffer's first ones (R40). -/
theorem heldBits_overflow (h : c.pbits ≤ p.cur) :
    p.heldBits c = (List.range c.pbits).map p.P.getBit ++ (List.range (p.cur - c.pbits)).map p.O.getBit := by
  rw [Packer.heldBits, show p.cur = c.pbits + (p.cur - c.pbits) by omega, List.range_add, List.map_append,
    List.map_map, Nat.add_sub_cancel_left]
  congr 1
  · exact List.map_congr_left fun _ hL => logicalBit_primary c p (List.mem_range.mp hL)
  · refine List.map_congr_left fun k _ => ?_
    rw [Function.comp_apply, logicalBit_overflow c p (Nat.le_add_right _ _), Nat.add_sub_cancel_left]

/-- In normal mode the bytes written so far are the held bits and then zero pad bits (R34, R46). -/
theorem bitsOfBytes_written (h : p.Ok c) (hv : p.ovf = false) :
    bitsOfBytes ((List.range (divUp p.cur 8)).map p.P.read) = padBits (p.heldBits c) := by
  have hcur := (h.cursor.normal hv).1
  have hsize : 8 * divUp p.cur 8 = p.cur + (8 - p.cur % 8) % 8 := by unfold divUp; omega
  have hpad : ∀ j < (8 - p.cur % 8) % 8, p.P.getBit (p.cur + j) = false := by
    intro j hj
    have hinside : p.cur + j < c.pbits := by unfold Config.pbits at hcur ⊢; omega
    rw [← logicalBit_primary c p hinside]
    exact (padz_iff c p).mp h.padz _ (by omega) (by omega)
  rw [bitsOfBytes_read, hsize, List.range_add, List.map_append, List.map_map, padBits, heldBits_length,
    heldBits_primary hcur]
  congr 1
  exact List.eq_replicate_iff.mpr ⟨by simp, by simpa using hpad⟩

end

/-- Settles O41: the drains return the bytes of the primary buffer, whose bits are the held bits below PBITS. -/
theorem drainDataAreTheHeldBits : Obligations.DrainDataAreTheHeldBits := by
  refine fun s h => ⟨fun hv x => ?_, fun hv => ?_, fun hv => ?_⟩
  · obtain ⟨p, hexec, hpacks⟩ := exec_pkAppend_normal h hv x
    exact ⟨p, hexec, hpacks.heldBits⟩
  · obtain ⟨p, hexec, -, hcur, hcarried⟩ := exec_pkDrainF_overflow h hv
    obtain ⟨hpast, hle, -⟩ := h.packer.cursor.overflow hv
    have hw := wSeq_le_overflow s.cfg
    have hfit := overflow_le_pbits s.cfg
    have hheld : p.heldBits s.cfg = (List.range (s.packer.cur - s.cfg.pbits)).map s.packer.O.getBit := by
      rw [heldBits_primary (by omega), hcur]
      exact List.map_congr_left fun k hk => hcarried k (List.mem_range.mp hk)
    refine ⟨p, _, hexec, ?_, ?_⟩
    · rw [bitsOfBytes_read, List.length_map, List.length_range, Config.pbits]
    · rw [bitsOfBytes_read, hheld, heldBits_overflow (Nat.le_of_lt hpast), Config.pbits]
  · exact ⟨Packer.reset, _, exec_pkDrainP_normal h hv, bitsOfBytes_written h.packer hv, rfl⟩

end Machine

end Sys2Proof

/-! PROOFS. The encoding (spec/30_encoding.md): the fields of a command's word, which words are commands, what a command
answers, and the assembler. -/

namespace Sys2Proof

/-! ### The fields of a command's word -/

/-- The number a command has in the field `OP` (R63). -/
@[simp] def Instr.opNumber : Instr → Nat
  | .sqClear _ => 1
  | .sqAppend _ _ => 2
  | .sqGet _ _ => 3
  | .sqLen _ => 4
  | .sqClone _ _ => 5
  | .pkAppend _ => 8
  | .pkHasOvf => 9
  | .pkDrainF => 10
  | .pkDrainP => 11
  | .pkIsEmpty => 12

/-- The number a command has in the field `RA`; 0 where the field must be zero (R61, R62). -/
@[simp] def Instr.raNumber : Instr → Nat
  | .sqClear d => d.val
  | .sqAppend d _ => d.val
  | .sqGet d _ => d.val
  | .sqLen d => d.val
  | .sqClone d _ => d.val
  | .pkAppend src => src.val
  | .pkHasOvf => 0
  | .pkDrainF => 0
  | .pkDrainP => 0
  | .pkIsEmpty => 0

/-- The number a command has in the low byte of its word, `IMM8` (R60, R62). -/
@[simp] def Instr.immNumber : Instr → Nat
  | .sqClear _ => 0
  | .sqAppend _ b => b.toNat
  | .sqGet _ i => i.toNat
  | .sqLen _ => 0
  | .sqClone _ src => src.val
  | .pkAppend _ => 0
  | .pkHasOvf => 0
  | .pkDrainF => 0
  | .pkDrainP => 0
  | .pkIsEmpty => 0

theorem toNat_or_register {op : Nat} (r : Reg) (hop : op < 16) :
    (BitVec.ofNat 16 (4096 * op) ||| raBits r).toNat = 4096 * op + 256 * r.val := by
  simpa using toNat_or_fields (imm := 0) r hop (by omega)

/-- The encoder puts a command's three numbers side by side (R59, R69). -/
theorem encode_toNat (i : Instr) : (encode i).toNat = 4096 * i.opNumber + 256 * i.raNumber + i.immNumber := by
  cases i with
  | sqClear d => exact toNat_or_register (op := 1) d (by decide)
  | sqAppend d b => exact toNat_or_fields (op := 2) d (by decide) (by cases b <;> decide)
  | sqGet d k =>
    have h := toNat_or_fields (op := 3) d (by decide) k.isLt
    rwa [BitVec.ofNat_toNat] at h
  | sqLen d => exact toNat_or_register (op := 4) d (by decide)
  | sqClone d src => exact toNat_or_fields (op := 5) d (by decide) (by omega)
  | pkAppend src => exact toNat_or_register (op := 8) src (by decide)
  | pkHasOvf | pkDrainF | pkDrainP | pkIsEmpty => rfl

theorem encode_eq_ofNat (i : Instr) :
    encode i = BitVec.ofNat 16 (4096 * i.opNumber + 256 * i.raNumber + i.immNumber) := by
  rw [← encode_toNat, BitVec.ofNat_toNat, BitVec.setWidth_eq]

/-- A command read from fields has those fields: the decoder drops no bit (R60, R62). -/
theorem fields_of_decodeFields {op ra imm : Nat} {i : Instr} (hra : ra < 16) (himm : imm < 256)
    (h : decodeFields op ra imm = .ok i) : i.opNumber = op ∧ i.raNumber = ra ∧ i.immNumber = imm := by
  have hreg : (Fin.ofNat 16 ra).val = ra := Nat.mod_eq_of_lt hra
  unfold decodeFields at h
  -- the cases stand in the decoder's order: the third is SQ_GET, which has no bound to check, the last the reserved OPs
  split at h
  case h_3 =>
    cases h
    exact ⟨rfl, hreg, Nat.mod_eq_of_lt himm⟩
  case h_11 => cases h
  all_goals
    split at h
    case isFalse => cases h
  case h_2 hbit =>
    cases h
    refine ⟨rfl, hreg, ?_⟩
    interval_cases imm <;> rfl
  case h_5 hsrc =>
    cases h
    exact ⟨rfl, hreg, Nat.mod_eq_of_lt hsrc⟩
  case h_1 hzero | h_4 hzero | h_6 hzero =>
    cases h
    exact ⟨rfl, hreg, hzero.symm⟩
  case h_7 hzero | h_8 hzero | h_9 hzero | h_10 hzero =>
    cases h
    exact ⟨rfl, hzero.1.symm, hzero.2.symm⟩

/-- A word decodes to a command exactly when it is the command's encoding. -/
theorem decodeWord_eq_ok_iff {w : Word} {i : Instr} : decodeWord w = .ok i ↔ encode i = w := by
  constructor
  · intro h
    rw [decodeWord_eq_fields] at h
    obtain ⟨hop, hra, himm⟩ := fields_of_decodeFields (by omega) (by omega) h
    apply BitVec.eq_of_toNat_eq
    rw [encode_toNat, hop, hra, himm]
    omega
  · rintro rfl
    exact decodeWord_encode i

theorem wellFormed_of_instr (i : Instr) : i.wellFormed = true := by
  cases i with
  | sqAppend d b => cases b <;> simp [Instr.wellFormed, Instr.toStmt, Stmt.wellFormed, Stmt.regOk, Stmt.bitOk]
  | sqGet d k => simpa [Instr.wellFormed, Instr.toStmt, Stmt.wellFormed, Stmt.regOk, Stmt.posOk] using k.isLt
  | _ => simp [Instr.wellFormed, Instr.toStmt, Stmt.wellFormed, Stmt.regOk]

/-- Settles O10: the words that decode to a command are its one encoding, which is built from the same three fields. -/
theorem decodeEncodeRoundTrip : Obligations.DecodeEncodeRoundTrip :=
  ⟨fun i => ⟨wellFormed_of_instr i, decodeWord_encode i⟩, fun _ _ => decodeWord_eq_ok_iff.mp⟩

theorem raBits_toNat_eq_shift (r : Reg) : (raBits r).toNat = r.val <<< 8 := by
  rw [raBits_toNat, Nat.shiftLeft_eq, Nat.mul_comm]

/-- Settles O9: the fields are put together by OR, and each is narrow enough to keep its number. -/
theorem encodingOfEachForm : Obligations.EncodingOfEachForm := by
  refine ⟨fun d => ?_, fun d b => ?_, fun d i => ?_, fun d => ?_, fun d src => ?_, fun src => ?_, rfl, rfl, rfl, rfl⟩ <;>
    simp only [encode, BitVec.toNat_or, raBits_toNat_eq_shift]
  · rfl
  · cases b <;> rfl
  · rw [BitVec.toNat_setWidth_of_le (by decide)]; rfl
  · rfl
  · rw [BitVec.toNat_ofNat, Nat.mod_eq_of_lt (by omega)]; rfl
  · rfl

/-- Settles O8: each written-out word is the encoding of its command; the last two have a reserved OP and a must-be-zero field
that is not zero. -/
theorem wordsOfTheOpcodeMapDecode : Obligations.WordsOfTheOpcodeMapDecode :=
  ⟨decodeWord_encode (.sqClear 15), decodeWord_encode (.sqAppend 15 true), decodeWord_encode (.sqGet 0 254),
    decodeWord_encode (.sqLen 10), decodeWord_encode (.sqClone 10 5), decodeWord_encode (.pkAppend 15),
    decodeWord_encode .pkHasOvf, decodeWord_encode .pkDrainF, decodeWord_encode .pkDrainP, decodeWord_encode .pkIsEmpty,
    decodeWord_of_fields (op := 0) (ra := 0) (imm := 0) (by decide) (by decide) rfl,
    decodeWord_of_fields (op := 5) (ra := 10) (imm := 21) (by decide) (by decide) rfl⟩

/-! ### The rows of the opcode map and the number of commands -/

/-- A command's word hits the command's own row of the opcode map and no other (R63, R64). -/
theorem rows_hit_encode (i : Instr) :
    (opcodeMap.filter fun r => r.hits (encode i)).map Row.mnemonic = [i.mnemonic] :=
  match i with
  | .sqClear d => Laws.OpcodeRow.sqClear d
  | .sqAppend d b => Laws.OpcodeRow.sqAppend d b
  | .sqGet d k => Laws.OpcodeRow.sqGet d k
  | .sqLen d => Laws.OpcodeRow.sqLen d
  | .sqClone d src => Laws.OpcodeRow.sqClone d src
  | .pkAppend src => Laws.OpcodeRow.pkAppend src
  | .pkHasOvf => Laws.OpcodeRow.pkHasOvf
  | .pkDrainF => Laws.OpcodeRow.pkDrainF
  | .pkDrainP => Laws.OpcodeRow.pkDrainP
  | .pkIsEmpty => Laws.OpcodeRow.pkIsEmpty

theorem ite_ok_eq_error_iff {p : Prop} [Decidable p] {i : Instr} {x : Except DecodeError Instr} {e : DecodeError} :
    (if p then .ok i else x) = .error e ↔ ¬ p ∧ x = .error e := by
  by_cases h : p <;> simp [h]

/-- An ILLEGAL word hits no row: the decoder has tried each (R64). -/
theorem rows_hit_of_decode_error {w : Word} {e : DecodeError} (h : decodeWord w = .error e) :
    (opcodeMap.filter fun r => r.hits w) = [] := by
  simp only [decodeWord, ite_ok_eq_error_iff] at h
  obtain ⟨h1, h2, h3, h4, h5, h8, h9, h10, h11, h12, -⟩ := h
  simp only [opcodeMap, Row.hits, List.filter_eq_nil_iff, List.forall_mem_cons, beq_iff_eq]
  exact ⟨h1, h2, h3, h4, h5, h8, h9, h10, h11, h12, List.forall_mem_nil _⟩

theorem exists_row_hits_iff (w : Word) :
    (∃ r ∈ opcodeMap, r.hits w = true) ↔ (opcodeMap.filter fun r => r.hits w) ≠ [] := by
  simp only [ne_eq, List.filter_eq_nil_iff, not_forall, not_not, exists_prop]

/-- How many numbers the field `RA` of a command with this OP may hold: all 16 of a register operand, or 0 alone (R60, R62). -/
def raCount : Nat → Nat
  | 1 | 2 | 3 | 4 | 5 | 8 => 16
  | 9 | 10 | 11 | 12 => 1
  | _ => 0

/-- How many numbers the low byte of a command with this OP may hold (R60, R62). -/
def immCount : Nat → Nat
  | 2 => 2
  | 3 => 256
  | 5 => 16
  | 1 | 4 | 8 | 9 | 10 | 11 | 12 => 1
  | _ => 0

theorem isSome_toOption_ite {p : Prop} [Decidable p] {i : Instr} {e : DecodeError} :
    (if p then Except.ok i else Except.error e).toOption.isSome = decide p := by
  by_cases h : p <;> simp [h, Except.toOption]

/-- The fields of a command are those in range: the valid words of an OP form a rectangle. -/
theorem isSome_decodeFields {op ra imm : Nat} (hra : ra < 16) (himm : imm < 256) :
    (decodeFields op ra imm).toOption.isSome = (decide (ra < raCount op) && decide (imm < immCount op)) := by
  unfold decodeFields
  -- in the decoder's order: the seventh to the tenth are the commands without operands, whose RA must be zero too
  split
  case h_3 => simp [raCount, immCount, hra, himm, Except.toOption]
  case h_11 => simp [raCount, Except.toOption]
  case h_7 | h_8 | h_9 | h_10 =>
    rw [isSome_toOption_ite, Bool.decide_and]
    simp only [raCount, immCount, Nat.lt_one_iff]
  all_goals
    rw [isSome_toOption_ite]
    simp only [raCount, immCount, hra, Nat.lt_one_iff, decide_true, Bool.true_and]

theorem decodeTableWord_eq_fields {op k : Nat} (hop : op < 16) (hk : k < 4096) :
    decodeTableWord 16 (4096 * op + k) = (decodeFields op (k / 256) (k % 256)).toOption := by
  have hw : (tableWord 16 (4096 * op + k)).toNat = 4096 * op + 256 * (k / 256) + k % 256 := by
    rw [tableWord, BitVec.toNat_ofNat]
    omega
  rw [decodeTableWord, decodeWord_of_fields (by omega) (by omega) hw]

theorem countP_range_lt (b n : Nat) : (List.range n).countP (fun k => decide (k < b)) = min n b := by
  induction n with
  | zero => simp
  | succ n ih =>
    rw [List.range_succ, List.countP_append, ih, List.countP_singleton]
    simp only [decide_eq_true_eq]
    split <;> omega

/-- Of the numbers below `m * n`, those whose quotient by `n` is below `a` and whose remainder is below `b` are counted by a
product. -/
theorem countP_range_div_mod (a b m : Nat) {n : Nat} (hn : 0 < n) :
    (List.range (m * n)).countP (fun k => decide (k / n < a) && decide (k % n < b)) = min m a * min n b := by
  induction m with
  | zero => simp
  | succ m ih =>
    have hrow : ((List.range n).map (m * n + ·)).countP (fun k => decide (k / n < a) && decide (k % n < b)) =
        (List.range n).countP fun k => decide (m < a) && decide (k < b) := by
      rw [List.countP_map]
      refine List.countP_congr fun k hk => ?_
      have hk := List.mem_range.mp hk
      rw [Function.comp_apply, Nat.mul_add_mod', Nat.mod_eq_of_lt hk, Nat.mul_comm m n, Nat.mul_add_div hn,
        Nat.div_eq_of_lt hk, Nat.add_zero]
    rw [Nat.succ_mul, List.range_add, List.countP_append, ih, hrow]
    by_cases hm : m < a
    · simp only [hm, decide_true, Bool.true_and, countP_range_lt]
      rw [show min (m + 1) a = m + 1 by omega, show min m a = m by omega, Nat.succ_mul]
    · simp only [hm, decide_false, Bool.false_and, List.countP_false]
      rw [show min (m + 1) a = min m a by omega]
      rfl

/-- An OP has as many valid words as its rectangle of fields has points (R64). -/
theorem countP_isSome_decodeTableWord {op : Nat} (hop : op < 16) :
    ((List.range 4096).countP fun k => (decodeTableWord 16 (4096 * op + k)).isSome) =
      min 16 (raCount op) * min 256 (immCount op) := by
  rw [← countP_range_div_mod (raCount op) (immCount op) 16 (by decide : 0 < 256)]
  refine List.countP_congr fun k hk => ?_
  have hk := List.mem_range.mp hk
  rw [decodeTableWord_eq_fields hop hk, isSome_decodeFields (by omega) (by omega)]

theorem countP_isNone (f : Nat → Option Instr) (n : Nat) :
    ((List.range n).countP fun k => (f k).isNone) = n - (List.range n).countP fun k => (f k).isSome := by
  have h := List.length_eq_countP_add_countP (fun k => (f k).isSome) (l := List.range n)
  simp only [List.length_range, Bool.not_eq_true, Option.isSome_eq_false_iff, Bool.decide_eq_true] at h
  omega

/-- Settles O11: a word is a command when it is a command's encoding, which hits one row; the counts are those of the field
ranges. -/
theorem decodingIsTotalAndUnambiguous : Obligations.DecodingIsTotalAndUnambiguous := by
  have hrow : ∀ (w : Word) (i : Instr), decodeWord w = .ok i →
      (opcodeMap.filter fun r => r.hits w).map Row.mnemonic = [i.mnemonic] := fun w i h =>
    decodeWord_eq_ok_iff.mp h ▸ rows_hit_encode i
  have hcounts : ((List.range 16).map fun op =>
      (List.range 4096).countP fun k => (decodeTableWord 16 (4096 * op + k)).isSome) =
        [0, 16, 32, 4096, 16, 256, 0, 0, 16, 1, 1, 1, 1, 0, 0, 0] :=
    List.map_congr_left fun op hop => countP_isSome_decodeTableWord (List.mem_range.mp hop)
  have hillegal : ((List.range 16).map fun op =>
      (List.range 4096).countP fun k => (decodeTableWord 16 (4096 * op + k)).isNone) =
        [0, 16, 32, 4096, 16, 256, 0, 0, 16, 1, 1, 1, 1, 0, 0, 0].map (4096 - ·) := by
    rw [← hcounts, List.map_map]
    exact List.map_congr_left fun op _ => countP_isNone _ 4096
  refine ⟨fun w => ?_, fun w => ?_, hrow, hcounts, by rw [hcounts]; rfl, by rw [hillegal]; rfl⟩
  · rw [exists_row_hits_iff]
    cases h : decodeWord w with
    | ok i =>
      have hne : (opcodeMap.filter fun r => r.hits w) ≠ [] := fun hnil => by simpa [hnil] using hrow w i h
      exact ⟨fun _ => hne, fun _ => ⟨i, rfl⟩⟩
    | error e => simp [rows_hit_of_decode_error h]
  · cases h : decodeWord w with
    | ok i => exact Nat.le_of_eq (by simpa using congrArg List.length (hrow w i h))
    | error e => simp [rows_hit_of_decode_error h]

/-! ### Reserved and malformed words -/

theorem decodeFields_eq_reservedOp_iff {op ra imm : Nat} (hop : op < 16) :
    decodeFields op ra imm = .error .reservedOp ↔ op ∈ [0x0, 0x6, 0x7, 0xD, 0xE, 0xF] := by
  unfold decodeFields
  split
  case h_11 =>
    simp only [List.mem_cons, List.not_mem_nil, or_false, eq_self, true_iff, imp_false] at *
    omega
  case h_3 => simp
  all_goals split <;> simp

theorem decodeFields_eq_mustBeZero_iff {op ra imm : Nat} :
    decodeFields op ra imm = .error .mustBeZero ↔
      (op ∈ [0x1, 0x4, 0x8] ∧ imm ≠ 0) ∨ (op = 0x2 ∧ ¬ imm < 2) ∨ (op = 0x5 ∧ ¬ imm < 16) ∨
      (op ∈ [0x9, 0xA, 0xB, 0xC] ∧ ¬ (ra = 0 ∧ imm = 0)) := by
  unfold decodeFields
  split
  case h_11 => simp_all
  case h_3 => simp
  all_goals split <;> simp [*]

/-- Settles O12: the decoder reads a word by its fields, and rejects it before any state is read. -/
theorem reservedAndMalformedWordsAreIllegal : Obligations.ReservedAndMalformedWordsAreIllegal := by
  refine ⟨fun w => ?_, fun w => ?_, fun s w e h => ⟨_, Machine.perform_of_decode_error h _, rfl, rfl, rfl⟩⟩
  · rw [decodeWord_eq_fields, decodeFields_eq_reservedOp_iff (by omega)]
  · rw [decodeWord_eq_fields, decodeFields_eq_mustBeZero_iff]
    have h2 : w.toNat % 256 / 2 ≠ 0 ↔ ¬ w.toNat % 256 < 2 := by omega
    have h16 : w.toNat % 256 / 16 ≠ 0 ↔ ¬ w.toNat % 256 < 16 := by omega
    have hall : w.toNat % 4096 ≠ 0 ↔ ¬ (w.toNat / 256 % 16 = 0 ∧ w.toNat % 256 = 0) := by omega
    rw [h2, h16, hall]

/-! ### The assembler -/

/-- A statement with a known range assembles in that range, to words it is enough to know there (R68). -/
theorem Stmt.assemble_eq_ite {t : Stmt} {p : Prop} [Decidable p] {ws : List Word} (hp : t.wellFormed = true ↔ p)
    (hw : p → t.words = ws) : t.assemble = if p then some ws else none := by
  by_cases h : p
  · rw [Stmt.assemble, if_pos (hp.mpr h), if_pos h, hw h]
  · rw [Stmt.assemble, if_neg (mt hp.mp h), if_neg h]

theorem Stmt.assemble_eq_some_iff {t : Stmt} {ws : List Word} :
    t.assemble = some ws ↔ t.wellFormed = true ∧ t.words = ws := by
  simp [Stmt.assemble]

theorem Stmt.assemble_eq_none_iff {t : Stmt} : t.assemble = none ↔ t.wellFormed = false := by
  simp [Stmt.assemble]

/-- The words of a statement other than `.word` are encodings (R69, R71). -/
theorem Stmt.exists_encode_of_mem_words {t : Stmt} (ht : ∀ w, t ≠ .word w) {w : Word} (hw : w ∈ t.words) :
    ∃ i, encode i = w := by
  cases t with
  | word n => exact absurd rfl (ht n)
  | sqFork d src b =>
    obtain rfl | hw := List.mem_cons.mp hw
    · exact ⟨_, rfl⟩
    · exact ⟨_, (List.mem_singleton.mp hw).symm⟩
  | _ => exact ⟨_, (List.mem_singleton.mp hw).symm⟩

/-- A command's own statement assembles to the command's word (R69). -/
theorem assemble_toStmt (i : Instr) : i.toStmt.assemble = some [encode i] := by
  have hwords : i.toStmt.words = [encode i] := by
    cases i <;> simp [Instr.toStmt, Stmt.words]
  rw [Stmt.assemble, if_pos (show i.toStmt.wellFormed = true from wellFormed_of_instr i), hwords]

theorem disassemble_of_decode_ok {w : Word} {i : Instr} (h : decodeWord w = .ok i) : disassemble w = i.toStmt := by
  simp only [disassemble, h]

theorem disassemble_of_decode_error {w : Word} {e : DecodeError} (h : decodeWord w = .error e) :
    disassemble w = .word w.toNat := by
  simp only [disassemble, h]

theorem assemble_word (n : Nat) : Stmt.assemble (.word n) = if n < 65536 then some [BitVec.ofNat 16 n] else none :=
  Stmt.assemble_eq_ite (by simp [Stmt.wellFormed, Stmt.rawOk]) fun _ => rfl

/-- Settles O48: the disassembler shows what the decoder answers, and both a command's statement and a raw word assemble to the
word. -/
theorem disassemblyInvertsAssembly : Obligations.DisassemblyInvertsAssembly := by
  refine ⟨fun i => disassemble_of_decode_ok (decodeWord_encode i), fun _ _ => disassemble_of_decode_error, fun w => ?_⟩
  cases h : decodeWord w with
  | ok i => rw [disassemble_of_decode_ok h, assemble_toStmt, decodeWord_eq_ok_iff.mp h]
  | error e => rw [disassemble_of_decode_error h, assemble_word, if_pos w.isLt, BitVec.ofNat_toNat, BitVec.setWidth_eq]

theorem encode_sqAppend_ofNat {d b : Nat} (hd : d < 16) (hb : b < 2) :
    encode (.sqAppend (Fin.ofNat 16 d) (decide (b = 1))) = BitVec.ofNat 16 (0x2000 + 256 * d + b) := by
  have hbit : (decide (b = 1)).toNat = b := by interval_cases b <;> rfl
  simp [encode_eq_ofNat, Nat.mod_eq_of_lt hd, hbit]

theorem encode_sqClone_ofNat {d src : Nat} (hd : d < 16) (hsrc : src < 16) :
    encode (.sqClone (Fin.ofNat 16 d) (Fin.ofNat 16 src)) = BitVec.ofNat 16 (0x5000 + 256 * d + src) := by
  simp [encode_eq_ofNat, Nat.mod_eq_of_lt hd, Nat.mod_eq_of_lt hsrc]

/-- Settles O49: each form's ranges are those of its operands, and in range its words are encodings put together from the
operands. -/
theorem assemblerGivesOnlyCommands : Obligations.AssemblerGivesOnlyCommands := by
  refine ⟨⟨fun d => ?_, fun d b => ?_, fun d i => ?_, fun d => ?_, fun d src => ?_, fun src => ?_, rfl, rfl, rfl, rfl,
    fun d src b => ?_, assemble_word⟩, fun t => Stmt.assemble_eq_none_iff, fun t ws h ht w hw => ?_⟩
  case refine_1 | refine_4 | refine_6 =>
    refine Stmt.assemble_eq_ite (by simp [Stmt.wellFormed, Stmt.regOk]) fun hr => ?_
    simp [Stmt.words, encode_eq_ofNat, Nat.mod_eq_of_lt hr]
  case refine_2 =>
    refine Stmt.assemble_eq_ite (by simp [Stmt.wellFormed, Stmt.regOk, Stmt.bitOk]) fun ⟨hd, hb⟩ => ?_
    rw [Stmt.words, encode_sqAppend_ofNat hd hb]
  case refine_3 =>
    refine Stmt.assemble_eq_ite (by simp [Stmt.wellFormed, Stmt.regOk, Stmt.posOk]) fun ⟨hd, hi⟩ => ?_
    simp [Stmt.words, encode_eq_ofNat, Nat.mod_eq_of_lt hd, Nat.mod_eq_of_lt hi]
  case refine_5 =>
    refine Stmt.assemble_eq_ite (by simp [Stmt.wellFormed, Stmt.regOk]) fun ⟨hd, hsrc⟩ => ?_
    rw [Stmt.words, encode_sqClone_ofNat hd hsrc]
  case refine_7 =>
    refine Stmt.assemble_eq_ite (by simp [Stmt.wellFormed, Stmt.regOk, Stmt.bitOk, and_assoc]) fun ⟨hd, hsrc, hb⟩ => ?_
    rw [Stmt.words, encode_sqClone_ofNat hd hsrc, encode_sqAppend_ofNat hd hb]
  case refine_8 =>
    obtain ⟨-, rfl⟩ := Stmt.assemble_eq_some_iff.mp h
    obtain ⟨i, rfl⟩ := Stmt.exists_encode_of_mem_words ht hw
    exact ⟨i, decodeWord_encode i⟩

namespace Machine

/-! ### Responses -/

theorem zext8_toNat (b : Bool) : (zext8 b).toNat = b.toNat := by cases b <;> rfl

theorem BitSeq.Ok.len_toNat {c : Config} {q : BitSeq} (h : q.Ok c) : (BitVec.ofNat 8 q.len).toNat = q.len := by
  have := h.len_le
  have := c.wSeq_le
  rw [BitVec.toNat_ofNat, Nat.mod_eq_of_lt (by omega)]

theorem Memory.length_of_readBytes {m : Memory} {size a n : Nat} {data : List Byte}
    (h : m.readBytes size a n = some data) : data.length = n ∧ a + n ≤ size := by
  rw [Memory.readBytes, Option.ite_none_right_eq_some, Option.some.injEq] at h
  obtain ⟨hfit, rfl⟩ := h
  exact ⟨by simp, hfit⟩

/-- Settles O28: a rejection has one shape, and a command that is performed responds with what its rule says. -/
theorem responseOfEveryCommand : Obligations.ResponseOfEveryCommand := by
  intro i s t hinv h
  cases i with
  | sqClear d =>
    cases h
    exact ⟨_, rfl, Nat.zero_le _, fun _ => ⟨rfl, rfl⟩, fun _ => ⟨rfl, rfl⟩⟩
  | sqAppend d b =>
    obtain ⟨-, rfl⟩ | ⟨-, q, -, rfl⟩ := exec_sqAppend_next.mp h <;>
      exact ⟨_, rfl, Nat.zero_le _, fun _ => ⟨rfl, rfl⟩, fun _ => ⟨rfl, rfl⟩⟩
  | sqGet d k =>
    obtain ⟨-, rfl⟩ | ⟨-, b, hb, rfl⟩ := exec_sqGet_next.mp h
    · exact ⟨_, rfl, Nat.zero_le _, fun _ => ⟨rfl, rfl⟩, nofun⟩
    · exact ⟨_, rfl, Nat.zero_le _, fun hr => absurd rfl hr, fun _ => ⟨⟨b, hb, zext8_toNat b⟩, rfl⟩⟩
  | sqLen d =>
    cases h
    exact ⟨_, rfl, Nat.zero_le _, fun hr => absurd rfl hr, fun _ => ⟨(hinv.seqs d).len_toNat, rfl⟩⟩
  | sqClone d src =>
    cases h
    exact ⟨_, rfl, Nat.zero_le _, fun _ => ⟨rfl, rfl⟩, fun _ => ⟨rfl, rfl⟩⟩
  | pkAppend x =>
    obtain ⟨-, rfl⟩ | ⟨-, bits, p, -, -, rfl⟩ := exec_pkAppend_next.mp h <;>
      exact ⟨_, rfl, Nat.zero_le _, fun _ => ⟨rfl, rfl⟩, fun _ => ⟨rfl, rfl⟩⟩
  | pkHasOvf =>
    cases h
    exact ⟨_, rfl, Nat.zero_le _, fun hr => absurd rfl hr, fun _ => ⟨zext8_toNat _, rfl⟩⟩
  | pkDrainF =>
    obtain ⟨-, data, p, hdata, -, rfl⟩ | ⟨-, rfl⟩ := exec_pkDrainF_next.mp h
    · obtain ⟨hlen, -⟩ := Memory.length_of_readBytes hdata
      exact ⟨_, rfl, Nat.le_of_eq hlen, fun hr => absurd rfl hr, fun _ => ⟨rfl, hlen⟩⟩
    · exact ⟨_, rfl, Nat.zero_le _, fun _ => ⟨rfl, rfl⟩, nofun⟩
  | pkDrainP =>
    obtain ⟨-, rfl⟩ | ⟨-, data, hdata, rfl⟩ := exec_pkDrainP_next.mp h
    · exact ⟨_, rfl, Nat.zero_le _, fun _ => ⟨rfl, rfl⟩, nofun⟩
    · obtain ⟨hlen, hfit⟩ := Memory.length_of_readBytes hdata
      exact ⟨_, rfl, by simpa [hlen] using hfit, fun hr => absurd rfl hr, fun _ => ⟨rfl, hlen⟩⟩
  | pkIsEmpty =>
    cases h
    exact ⟨_, rfl, Nat.zero_le _, fun hr => absurd rfl hr, fun _ => ⟨zext8_toNat _, rfl⟩⟩

/-! ### SQ_FORK -/

theorem setSeq_seq_self (s : State) (r : Reg) : s.setSeq r (s.seq r) = s := by
  simp [State.setSeq, State.seq, Vector.get_eq_getElem]

/-- The pseudo-instruction's two words (R71). -/
theorem assemble_sqFork (d src : Reg) (b : Bool) :
    Stmt.assemble (.sqFork d.val src.val b.toNat) = some [encode (.sqClone d src), encode (.sqAppend d b)] := by
  have hb : b.toNat < 2 := by cases b <;> decide
  exact Stmt.assemble_eq_some_iff.mpr
    ⟨by simp [Stmt.wellFormed, Stmt.regOk, Stmt.bitOk, hb], by simp [Stmt.words]⟩

theorem issueAll_encode {i : Instr} {s t : State} (h : exec i s.advance = .next t) : issueAll [encode i] s = some t := by
  simp only [issueAll, issued_encode h, Option.bind_some]

/-- What SQ_CLONE leaves (R78). -/
theorem exec_sqClone_spec (s : State) (d src : Reg) : ∃ t, exec (.sqClone d src) s = .next t ∧ t.seq d = s.seq src ∧
    (d ≠ src → t.seq src = s.seq src) ∧ t.cfg = s.cfg ∧ t.responses = s.responses ++ [⟨.ok, 0, []⟩] ∧
    (d = src → t.block = s.block) := by
  refine ⟨_, rfl, seq_setSeq_same s d _, fun hne => seq_setSeq_other s d _ hne.symm, rfl, rfl, ?_⟩
  rintro rfl
  rw [setSeq_seq_self, respond_block]

/-- SQ_APPEND at the bound (R75). -/
theorem exec_sqAppend_full {s : State} {d : Reg} (h : (s.seq d).len = s.cfg.wSeq) (b : Bool) :
    exec (.sqAppend d b) s = .next (s.reject .seqFull) :=
  exec_sqAppend_next.mpr (.inl ⟨h, rfl⟩)

/-- SQ_APPEND with room: what it writes depends on the register alone (R75). -/
theorem exec_sqAppend_room {c : Config} {r : BitSeq} (h : r.Ok c) (hlen : r.len < c.wSeq) (b : Bool) :
    ∃ q : BitSeq, q.value = r.value ++ [b] ∧ ∀ (s : State) (d : Reg), s.cfg = c → s.seq d = r →
      exec (.sqAppend d b) s = .next ((s.setSeq d q).respond 0 []) := by
  obtain ⟨q, hq, -, -, hvalue⟩ := BitSeq.append_ok h hlen b
  refine ⟨q, hvalue, ?_⟩
  rintro s d rfl rfl
  exact exec_sqAppend_next.mpr (.inr ⟨Nat.ne_of_lt hlen, q, hq, rfl⟩)

/-- Settles O47: the append finds the copy in the destination, with the source's length. -/
theorem forkIsCloneThenAppend : Obligations.ForkIsCloneThenAppend := by
  intro s d src b hinv
  obtain ⟨-, happend, -, -, hclone, -⟩ := encodingOfEachForm
  have hwords : [encode (.sqClone d src), encode (.sqAppend d b)].map BitVec.toNat =
      [0x5000 ||| (d.val <<< 8) ||| src.val, 0x2000 ||| (d.val <<< 8) ||| b.toNat] := by
    simp only [List.map_cons, List.map_nil, hclone, happend]
  obtain ⟨u, hu, hdst, hsrc, hcfg, hresp, hsame⟩ := exec_sqClone_spec s.advance d src
  by_cases hfull : (s.seq src).len = s.cfg.wSeq
  · have ht : exec (.sqAppend d b) u.advance = .next (u.advance.reject .seqFull) :=
      exec_sqAppend_full (by rw [advance_seq, hdst, advance_cfg, hcfg]; exact hfull) b
    refine ⟨_, _, assemble_sqFork d src b, hwords, issueAll_encode_pair hu ht, hsrc, fun hroom => absurd hfull hroom.ne,
      fun _ => ⟨hdst, ?_⟩, ?_⟩
    · rw [reject_responses, advance_responses, hresp, List.append_assoc]; rfl
    · rintro rfl
      exact ⟨_, issueAll_encode (exec_sqAppend_full (s := s.advance) hfull b), hsame rfl⟩
  · have hroom : (s.seq src).len < s.cfg.wSeq := Nat.lt_of_le_of_ne (hinv.seqs src).len_le hfull
    obtain ⟨q, hvalue, happends⟩ := exec_sqAppend_room (hinv.seqs src) hroom b
    have ht := happends u.advance d hcfg hdst
    refine ⟨_, _, assemble_sqFork d src b, hwords, issueAll_encode_pair hu ht, fun hne => ?_, fun _ => ⟨?_, ?_⟩,
      fun h => absurd h hfull, ?_⟩
    · rw [respond_seq, seq_setSeq_other _ _ _ hne.symm, advance_seq, hsrc hne, advance_seq]
    · rw [respond_seq, seq_setSeq_same, hvalue]
    · rw [respond_responses, setSeq_responses, advance_responses, hresp, List.append_assoc]; rfl
    · rintro rfl
      have hblock := hsame rfl
      refine ⟨_, issueAll_encode (happends s.advance d rfl rfl), ?_⟩
      exact congrArg (fun k : Block => (⟨k.seqs.set d.val q d.isLt, k.packer⟩ : Block)) hblock

end Machine

end Sys2Proof

/-! PROOFS. The sequence unit (spec/40_bitsequence.md): what each of its commands answers, which words are that command, and
that none of them reads or writes the packer. -/

namespace Sys2Proof

/-! ### Words written as the sum of their fields -/

/-- The word of a command's three numbers decodes to the command (R69). -/
theorem decodeWord_ofNat_numbers (i : Instr) :
    decodeWord (BitVec.ofNat 16 (4096 * i.opNumber + 256 * i.raNumber + i.immNumber)) = .ok i := by
  rw [← encode_eq_ofNat, decodeWord_encode]

theorem decodeWord_ofNat_fields {op imm : Nat} (d : Reg) (hop : op < 16) (himm : imm < 256) :
    decodeWord (BitVec.ofNat 16 (4096 * op + 256 * d.val + imm)) = decodeFields op d.val imm :=
  decodeWord_of_fields d.isLt himm (by rw [BitVec.toNat_ofNat]; omega)

/-- A command that takes no operand but its register has no other word with that register (R62). -/
theorem decodeWord_ofNat_of_imm_ne_zero {op imm : Nat} (d : Reg) (hop : op ∈ [0x1, 0x4, 0x8]) (hpos : 0 < imm)
    (himm : imm < 256) : decodeWord (BitVec.ofNat 16 (4096 * op + 256 * d.val + imm)) = .error .mustBeZero := by
  have hlt : op < 16 := by
    simp only [List.mem_cons, List.not_mem_nil, or_false] at hop
    omega
  rw [decodeWord_ofNat_fields d hlt himm]
  exact decodeFields_eq_mustBeZero_iff.mpr (.inl ⟨hop, hpos.ne'⟩)

namespace Machine

/-! ### SQ_CLEAR and SQ_LEN -/

/-- Settles O13: the command has no precondition, and only a zero `IMM8` is its word. -/
theorem sqClearMakesTheEmptySequence : Obligations.SqClearMakesTheEmptySequence :=
  ⟨fun _ _ => rfl, fun d => decodeWord_ofNat_numbers (.sqClear d),
    fun d _ => decodeWord_ofNat_of_imm_ne_zero (op := 1) d (by decide)⟩

/-- Settles O16: the bound on W_SEQ keeps the length of a legal register within the response's 8 bits. -/
theorem sqLenReturnsTheLength : Obligations.SqLenReturnsTheLength :=
  ⟨fun _ _ => ⟨rfl, BitSeq.Ok.len_toNat⟩, fun d => decodeWord_ofNat_numbers (.sqLen d),
    fun d _ => decodeWord_ofNat_of_imm_ne_zero (op := 4) d (by decide)⟩

/-! ### SQ_APPEND -/

namespace BitSeq

variable {q r : BitSeq} {b : Bool}

theorem len_append (h : q.append b = some r) : r.len = q.len + 1 := by
  obtain ⟨-, rfl⟩ := append_eq_some.mp h
  rfl

theorem getBit_append_same (h : q.append b = some r) : r.getBit q.len = some b := by
  obtain ⟨hlt, rfl⟩ := append_eq_some.mp h
  exact List.getElem?_set_self hlt

theorem getBit_append_other (h : q.append b = some r) {i : Nat} (hi : i ≠ q.len) : r.getBit i = q.getBit i := by
  obtain ⟨-, rfl⟩ := append_eq_some.mp h
  exact List.getElem?_set_ne hi.symm

end BitSeq

/-- Settles O14: below the bound a legal register has the cell at its length, and the append writes that cell alone. -/
theorem sqAppendAppendsOneBit : Obligations.SqAppendAppendsOneBit := by
  refine ⟨fun s d b hok => ⟨fun hfull => exec_sqAppend_full hfull b, fun hroom => ?_⟩,
    fun d b => decodeWord_ofNat_numbers (.sqAppend d b), fun d imm hge himm => ?_⟩
  · have hlt : (s.seq d).len < s.cfg.wSeq := Nat.lt_of_le_of_ne hok.len_le hroom
    obtain ⟨q, hq, -, -, hvalue⟩ := BitSeq.append_ok hok hlt b
    exact ⟨q, exec_sqAppend_next.mpr (.inr ⟨hroom, q, hq, rfl⟩), BitSeq.len_append hq, BitSeq.getBit_append_same hq,
      fun i => BitSeq.getBit_append_other hq, hvalue⟩
  · exact (decodeWord_ofNat_fields (op := 2) d (by decide) himm).trans
      (decodeFields_eq_mustBeZero_iff.mpr (.inr (.inl ⟨rfl, Nat.not_lt.mpr hge⟩)))

/-! ### SQ_GET -/

/-- Below the length the value's bits are the cells (R21, R41). -/
theorem BitSeq.value_getElem? {q : BitSeq} {i : Nat} (hi : i < q.len) : q.value[i]? = q.getBit i :=
  List.getElem?_take_of_lt hi

theorem exec_sqGet_outOfRange {s : State} {d : Reg} {i : BitVec 8} (h : (s.seq d).len ≤ i.toNat) :
    exec (.sqGet d i) s = .next (s.reject .indexOutOfRange) :=
  exec_sqGet_next.mpr (.inl ⟨h, rfl⟩)

/-- Settles O15: a legal register has every cell below its length, and its length is at most 255. -/
theorem sqGetReturnsTheBit : Obligations.SqGetReturnsTheBit := by
  refine ⟨fun s d i hok => ⟨fun hlt => ?_, exec_sqGet_outOfRange, exec_sqGet_outOfRange ?_⟩,
    fun d i => decodeWord_ofNat_numbers (.sqGet d i)⟩
  · have hbit := BitSeq.getBit_of_lt hok hlt
    exact ⟨_, hbit, (BitSeq.value_getElem? hlt).trans hbit, exec_sqGet_next.mpr (.inr ⟨hlt, _, hbit, rfl⟩)⟩
  · exact hok.len_le.trans s.cfg.wSeq_le

/-! ### SQ_CLONE -/

/-- Copying a register leaves the source as it was, whether or not it is the destination (R78). -/
theorem seq_setSeq_source (s : State) (d src : Reg) : (s.setSeq d (s.seq src)).seq src = s.seq src := by
  rw [seq_setSeq, ite_self]

/-- Settles O17: a write to one register leaves the others as they are, and copying a register to itself changes nothing. -/
theorem sqCloneCopiesTheRegister : Obligations.SqCloneCopiesTheRegister := by
  refine ⟨fun s d src => ⟨_, rfl, rfl, seq_setSeq_same s d _, seq_setSeq_source s d src, ?_, fun q hne => ⟨?_, ?_⟩⟩,
    fun d src => decodeWord_ofNat_numbers (.sqClone d src), fun d imm hge himm => ?_⟩
  · rintro rfl
    rw [setSeq_seq_self, respond_seqs]
  · rw [seq_setSeq_other _ _ _ hne.symm, respond_seq, seq_setSeq_source]
  · rw [seq_setSeq_other _ _ _ hne, respond_seq, seq_setSeq_same]
  · exact (decodeWord_ofNat_fields (op := 5) d (by decide) himm).trans
      (decodeFields_eq_mustBeZero_iff.mpr (.inr (.inr (.inl ⟨rfl, Nat.not_lt.mpr hge⟩))))

/-! ### The sequence unit and the packer -/

theorem mapNext_orNoSuchCell (f : State → State) (o : Option State) :
    mapNext f (orNoSuchCell o) = orNoSuchCell (o.map f) := by
  cases o <;> rfl

/-- An SQ command answers from any packer as from any other, and leaves that packer in place (R73). -/
theorem exec_setPacker_of_isSq {i : Instr} (hsq : isSq i = true) (s : State) (p : Packer) :
    exec i (s.setPacker p) = mapNext (fun t => t.setPacker p) (exec i s) := by
  cases i with
  | sqClear d => rfl
  | sqAppend d b =>
    simp only [exec, execSqAppend, apply_ite (mapNext _), mapNext_orNoSuchCell, Option.map_map]
    rfl
  | sqGet d k =>
    simp only [exec, execSqGet, apply_ite (mapNext _), mapNext_orNoSuchCell, Option.map_map]
    rfl
  | sqLen d => rfl
  | sqClone d src => rfl
  | pkAppend _ | pkHasOvf | pkDrainF | pkDrainP | pkIsEmpty => cases hsq

/-- An SQ command names one register in `RA`, and R23's table lists no other as written. -/
theorem exists_register_of_isSq {i : Instr} (hsq : isSq i = true) :
    ∃ d : Reg, (i = .sqClear d ∨ (∃ b, i = .sqAppend d b) ∨ (∃ k, i = .sqGet d k) ∨ i = .sqLen d ∨
      ∃ src, i = .sqClone d src) ∧ ∀ r, r ≠ d → writesReg i r = false := by
  cases i with
  | sqClear d => exact ⟨d, .inl rfl, fun _ => beq_false_of_ne⟩
  | sqAppend d b => exact ⟨d, .inr (.inl ⟨b, rfl⟩), fun _ => beq_false_of_ne⟩
  | sqGet d k => exact ⟨d, .inr (.inr (.inl ⟨k, rfl⟩)), fun _ _ => rfl⟩
  | sqLen d => exact ⟨d, .inr (.inr (.inr (.inl rfl))), fun _ _ => rfl⟩
  | sqClone d src => exact ⟨d, .inr (.inr (.inr (.inr ⟨src, rfl⟩))), fun _ => beq_false_of_ne⟩
  | pkAppend _ | pkHasOvf | pkDrainF | pkDrainP | pkIsEmpty => cases hsq

/-- Settles O19: no arm of the unit looks at the packer, and the frame of the commands leaves every register but the one in
`RA`. -/
theorem sqCommandsIgnoreThePacker : Obligations.SqCommandsIgnoreThePacker := by
  refine fun i s hsq => ⟨exec_setPacker_of_isSq hsq s, fun t h => ?_⟩
  obtain ⟨hregs, hpacker, -⟩ := sqFrame i s t hsq h
  obtain ⟨d, hnames, hwrites⟩ := exists_register_of_isSq hsq
  exact ⟨hpacker, d, hnames, fun r hr => hregs r (hwrites r hr)⟩

end Machine

end Sys2Proof

/-! PROOFS. The packer unit (spec/41_packer.md): what each of its commands answers and leaves unchanged, and the laws of the
bits that go through it. -/

namespace Sys2Proof

/-- A command without operands has no word of its OP but the one whose other bits are all 0 (R62). -/
theorem decodeWord_ofNat_of_low_ne_zero {op f : Nat} (hop : op ∈ [0x9, 0xA, 0xB, 0xC]) (hpos : 0 < f) (hf : f < 4096) :
    decodeWord (BitVec.ofNat 16 (4096 * op + f)) = .error .mustBeZero := by
  have hlt : op < 16 := by
    simp only [List.mem_cons, List.not_mem_nil, or_false] at hop
    omega
  have hop' : (BitVec.ofNat 16 (4096 * op + f)).toNat / 4096 = op := by rw [BitVec.toNat_ofNat]; omega
  have hlow : (BitVec.ofNat 16 (4096 * op + f)).toNat % 4096 ≠ 0 := by rw [BitVec.toNat_ofNat]; omega
  obtain ⟨-, hzero, -⟩ := reservedAndMalformedWordsAreIllegal
  exact (hzero _).mpr (.inr (.inr (.inr ⟨hop'.symm ▸ hop, hlow⟩)))

namespace Machine

/-! ### Every command answers, and the response the host has last received -/

section
variable {s t : State}

/-- From a good state a command answers a next state: no cell is missing (R31, R115). -/
theorem exists_exec_next (h : Inv s) (i : Instr) : ∃ t, exec i s = .next t := by
  cases i with
  | sqClear d => exact ⟨_, rfl⟩
  | sqAppend d b =>
    by_cases hfull : (s.seq d).len = s.cfg.wSeq
    · exact ⟨_, exec_sqAppend_full hfull b⟩
    · obtain ⟨q, -, hexec⟩ := exec_sqAppend_room (h.seqs d) (Nat.lt_of_le_of_ne (h.seqs d).len_le hfull) b
      exact ⟨_, hexec s d rfl rfl⟩
  | sqGet d k =>
    by_cases hout : (s.seq d).len ≤ k.toNat
    · exact ⟨_, exec_sqGet_outOfRange hout⟩
    · have hin := Nat.lt_of_not_le hout
      exact ⟨_, exec_sqGet_next.mpr (.inr ⟨hin, _, BitSeq.getBit_of_lt (h.seqs d) hin, rfl⟩)⟩
  | sqLen d => exact ⟨_, rfl⟩
  | sqClone d src => exact ⟨_, rfl⟩
  | pkAppend x =>
    cases hv : s.packer.ovf with
    | true => exact ⟨_, exec_pkAppend_next.mpr (.inl ⟨hv, rfl⟩)⟩
    | false => exact (exec_pkAppend_normal h hv x).imp' _ fun _ hp => hp.1
  | pkHasOvf => exact ⟨_, rfl⟩
  | pkDrainF =>
    cases hv : s.packer.ovf with
    | true => exact (exec_pkDrainF_overflow h hv).imp' _ fun _ hp => hp.1
    | false => exact ⟨_, exec_pkDrainF_normal hv⟩
  | pkDrainP =>
    cases hv : s.packer.ovf with
    | true => exact ⟨_, exec_pkDrainP_next.mpr (.inl ⟨hv, rfl⟩)⟩
    | false => exact ⟨_, exec_pkDrainP_normal h hv⟩
  | pkIsEmpty => exact ⟨_, rfl⟩

@[simp] theorem lastResponse_respond (s : State) (v : Byte) (data : List Byte) :
    (s.respond v data).lastResponse = ⟨.ok, v, data⟩ := by
  simp [State.lastResponse]

@[simp] theorem lastResponse_reject (s : State) (st : Status) : (s.reject st).lastResponse = ⟨st, 0, []⟩ := by
  simp [State.lastResponse]

/-- A command whose last response is not OK has been rejected. -/
theorem exec_of_status_ne_ok {i : Instr} (ht : exec i s = .next t) (hst : t.lastResponse.status ≠ .ok) :
    ∃ st, t = s.reject st := by
  cases exec_performed ht with
  | rejected st _ ht => exact ⟨st, ht⟩
  | register d q _ ht => simp [ht] at hst
  | query v _ ht => simp [ht] at hst
  | packer p data _ ht => simp [ht] at hst

end

/-! ### The two queries of the packer -/

theorem zext8_eq_ite (b : Bool) : zext8 b = if b then 1 else 0 := by cases b <;> rfl

theorem Packer.emptyVal_eq_ite (p : Packer) : p.emptyVal = if p.cur = 0 then 1 else 0 := by
  simp [Packer.emptyVal, Packer.empty, zext8_eq_ite]

/-- Settles O21: OVF is one bit, zero-extended. -/
theorem pkHasOvfReportsOverflow : Obligations.PkHasOvfReportsOverflow := by
  refine ⟨fun s => ?_, decodeWord_encode .pkHasOvf, fun f => decodeWord_ofNat_of_low_ne_zero (op := 9) (by decide)⟩
  rw [← zext8_eq_ite]
  rfl

/-- Settles O24: EMPTY is one bit, zero-extended, and CURSOR puts the cursor past 0 in overflow mode. -/
theorem pkIsEmptyReportsEmpty : Obligations.PkIsEmptyReportsEmpty := by
  have hexec : ∀ s : State, exec .pkIsEmpty s = .next (s.respond (if s.packer.cur = 0 then 1 else 0) []) := fun s => by
    rw [← Packer.emptyVal_eq_ite]
    rfl
  refine ⟨fun s => ⟨hexec s, fun h hv => ?_⟩, decodeWord_encode .pkIsEmpty,
    fun f => decodeWord_ofNat_of_low_ne_zero (op := 12) (by decide)⟩
  obtain ⟨hpast, -, -⟩ := h.packer.cursor.overflow hv
  rw [hexec, if_neg (Nat.ne_of_gt (Nat.lt_of_le_of_lt (Nat.zero_le _) hpast))]

/-! ### The buffers past the cursor -/

theorem Memory.getBit_outside {m : Memory} {size i : Nat} (h : ∀ x ∈ m, x.1 < size) (hi : 8 * size ≤ i) :
    m.getBit i = false := by
  simp [Memory.getBit, Memory.read_outside h (show size ≤ i / 8 by omega)]

namespace Packer.Ok

variable {c : Config} {p : Packer}

/-- Every logical bit at or past the cursor reads 0: inside the buffers by PADZ, outside them by R37. -/
theorem logicalBit_of_cur_le (h : p.Ok c) {L : Nat} (hL : p.cur ≤ L) : p.logicalBit c L = false := by
  by_cases hin : L < c.pbits + 8 * c.ocapBytes
  · exact (padz_iff c p).mp h.padz L hL hin
  · rw [logicalBit_overflow c p (by omega), Memory.getBit_outside h.buffers.insideO (by omega)]

theorem getBit_P_of_cur_le (h : p.Ok c) {k : Nat} (hk : p.cur ≤ k) : p.P.getBit k = false := by
  by_cases hin : k < c.pbits
  · rw [← logicalBit_primary c p hin, h.logicalBit_of_cur_le hk]
  · exact Memory.getBit_outside h.buffers.insideP (Nat.not_lt.mp hin)

theorem getBit_O_of_cur_le (h : p.Ok c) {k : Nat} (hk : p.cur ≤ c.pbits + k) : p.O.getBit k = false := by
  rw [← h.logicalBit_of_cur_le hk, logicalBit_overflow c p (Nat.le_add_right _ _), Nat.add_sub_cancel_left]

/-- An empty packer is the one of reset. -/
theorem eq_reset_of_cur_eq_zero (h : p.Ok c) (hcur : p.cur = 0) : p = Packer.reset := by
  have hv : p.ovf = false := by
    by_contra hv
    have := (h.cursor.overflow (by simpa using hv)).1
    omega
  have hP : p.P = [] := Memory.ext h.buffers.wfP rfl fun a => Memory.read_eq_of_getBit fun i _ _ => by
    rw [h.getBit_P_of_cur_le (by omega), Memory.getBit_nil]
  exact Packer.ext_cur (q := Packer.reset) hP (overflow_nil h hv) hcur hv (h.cursor.normal hv).2

end Packer.Ok

/-! ### PK_APPEND -/

/-- Packing no bits leaves a normal packer as it is. -/
theorem exec_pkAppend_of_len_eq_zero {s : State} (h : Inv s) (hv : s.packer.ovf = false) {x : Reg}
    (hlen : (s.seq x).len = 0) : exec (.pkAppend x) s = .next (s.respond 0 []) := by
  have hvalue : (s.seq x).value = [] := List.length_eq_zero_iff.mp ((BitSeq.value_length (h.seqs x)).trans hlen)
  exact exec_pkAppend_next.mpr (.inr ⟨hv, [], s.packer, hvalue ▸ BitSeq.read_ok (h.seqs x), rfl, rfl⟩)

/-- Settles O20: the closed form of the packing loop, for the value of the register. -/
theorem pkAppendPacksTheSequence : Obligations.PkAppendPacksTheSequence := by
  refine ⟨fun s x h => ⟨fun hv => exec_pkAppend_next.mpr (.inl ⟨hv, rfl⟩), fun hv => ?_⟩,
    fun x => decodeWord_ofNat_numbers (.pkAppend x),
    fun x imm => decodeWord_ofNat_of_imm_ne_zero (op := 8) x (by decide)⟩
  obtain ⟨p, hexec, hpacks⟩ := exec_pkAppend_normal h hv x
  have hlen := BitSeq.value_length (h.seqs x)
  have hbit := hpacks.bit
  have hovf : p.ovf = true ↔ s.cfg.pbits < s.packer.cur + (s.seq x).len := by simp [hpacks.ovf, hv, hlen]
  refine ⟨p, hexec, fun j hj => ?_, fun L hL => ?_, ?_, hovf, ?_, fun hzero => ?_⟩
  · rw [BitSeq.getBit_of_lt (h.seqs x) hj, hbit, if_pos (by omega), Nat.add_sub_cancel_left]
  · rw [hbit, hlen, if_neg hL]
  · rw [hpacks.cur, hlen]
  · simp only [hpacks.osize, hlen, hovf, hv, (h.packer.cursor.normal hv).2, true_and]
  · have hsame := hexec.symm.trans (exec_pkAppend_of_len_eq_zero h hv hzero)
    exact congrArg State.packer (Host.Outcome.next.inj hsame)

/-! ### PK_DRAINF -/

/-- PK_DRAINF moves the overflow buffer to the primary one, and leaves a good packer in normal mode (R83). -/
theorem exec_pkDrainF_moves {s : State} (h : Inv s) (hv : s.packer.ovf = true) :
    ∃ p : Packer, exec .pkDrainF s =
        .next ((s.setPacker p).respond 0 ((List.range s.cfg.capBytes).map s.packer.P.read)) ∧
      p.Ok s.cfg ∧ p.ovf = false ∧ p.cur = s.packer.cur - s.cfg.pbits ∧ p.P = s.packer.O := by
  obtain ⟨p, hexec, hnormal, hcur, hcarried⟩ := exec_pkDrainF_overflow h hv
  have hok : p.Ok s.cfg := (exec_keeps_inv h hexec).packer
  refine ⟨p, hexec, hok, hnormal, hcur, Memory.ext hok.buffers.wfP h.packer.buffers.wfO fun a =>
    Memory.read_eq_of_getBit fun k _ _ => ?_⟩
  by_cases hk : k < s.packer.cur - s.cfg.pbits
  · exact hcarried k hk
  · rw [hok.getBit_P_of_cur_le (by omega), h.packer.getBit_O_of_cur_le (by omega)]

/-- In overflow mode the overflow buffer's bytes past its allocation are 0 (R29, R34). -/
theorem Packer.Ok.read_O_of_osize_le {c : Config} {p : Packer} (h : p.Ok c) (hv : p.ovf = true) {a : Nat}
    (ha : p.osize ≤ a) : p.O.read a = 0 := by
  rw [(h.cursor.overflow hv).2.2, divUp_le_iff] at ha
  rw [← Memory.read_nil a]
  exact Memory.read_eq_of_getBit fun i hi _ => by rw [h.getBit_O_of_cur_le (by omega), Memory.getBit_nil]

/-- Settles O22: the overflow buffer becomes the primary one, and holds nothing past its `CUR - PBITS` bits. -/
theorem pkDrainFReturnsTheBufferAndCarries : Obligations.PkDrainFReturnsTheBufferAndCarries := by
  refine ⟨fun s h => ⟨exec_pkDrainF_normal, fun hv => ?_⟩, decodeWord_encode .pkDrainF,
    fun f => decodeWord_ofNat_of_low_ne_zero (op := 10) (by decide)⟩
  obtain ⟨p, hexec, hok, hnormal, hcur, hmoved⟩ := exec_pkDrainF_moves h hv
  obtain ⟨hpast, hle, -⟩ := h.packer.cursor.overflow hv
  refine ⟨p, hexec, fun k => ?_, fun a => ?_, overflow_nil hok hnormal, (hok.cursor.normal hnormal).2, hnormal, hcur, ?_,
    by omega, by omega, wSeq_le_overflow s.cfg, overflow_le_pbits s.cfg⟩
  · split
    · rw [hmoved]
    · exact hok.getBit_P_of_cur_le (by omega)
  · rw [hmoved]
    split
    · rfl
    · exact h.packer.read_O_of_osize_le hv (by omega)
  · exact decide_eq_false (by omega)

/-! ### PK_DRAINP -/

/-- The update that R84 writes out is the return to the packer of reset. -/
theorem Packer.Ok.drained_eq_reset {c : Config} {p : Packer} (h : p.Ok c) (hv : p.ovf = false) :
    { p with P := [], byteIdx := 0, bitIdx := 0 } = Packer.reset := h.drainP_eq_reset hv

/-- Settles O23: in normal mode the packer returns to that of reset, and the pad bits stand past the cursor. -/
theorem pkDrainPReturnsTheBytesWritten : Obligations.PkDrainPReturnsTheBytesWritten := by
  refine ⟨fun s h => ⟨fun hv => exec_pkDrainP_next.mpr (.inl ⟨hv, rfl⟩), fun hv => ?_⟩, decodeWord_encode .pkDrainP,
    fun f => decodeWord_ofNat_of_low_ne_zero (op := 11) (by decide)⟩
  rw [h.packer.drained_eq_reset hv]
  refine ⟨exec_pkDrainP_normal h hv, (divUp_le_iff _ _).mpr (h.packer.cursor.normal hv).1, fun _ j hj => ?_,
    fun hzero => (h.packer.eq_reset_of_cur_eq_zero hzero).symm⟩
  have hpad := h.packer.getBit_P_of_cur_le (k := 8 * (s.packer.cur / 8) + (7 - j)) (by omega)
  rwa [Memory.getBit, show (8 * (s.packer.cur / 8) + (7 - j)) / 8 = s.packer.cur / 8 by omega,
    show 7 - (8 * (s.packer.cur / 8) + (7 - j)) % 8 = j by omega] at hpad

/-! ### The frame of the packer unit -/

theorem writesReg_of_not_isSq {i : Instr} (hsq : isSq i = false) (r : Reg) : writesReg i r = false := by
  cases i with
  | sqClear _ | sqAppend _ _ | sqGet _ _ | sqLen _ | sqClone _ _ => cases hsq
  | pkAppend _ | pkHasOvf | pkDrainF | pkDrainP | pkIsEmpty => rfl

theorem exec_seqs_of_not_isSq {i : Instr} {s t : State} (hsq : isSq i = false) (ht : exec i s = .next t) :
    t.seqs = s.seqs :=
  Vector.ext fun k hk => exec_seq_of_not_writes ht (writesReg_of_not_isSq hsq ⟨k, hk⟩)

/-- Packers with the same logical bits in a byte have the same logical byte there (R40, R43). -/
theorem logicalByte_eq_of_logicalBit {c : Config} {p q : Packer} {a : Nat}
    (h : ∀ L, 8 * a ≤ L → L < 8 * a + 8 → p.logicalBit c L = q.logicalBit c L) : p.logicalByte c a = q.logicalByte c a := by
  have hpbits : c.pbits = 8 * c.capBytes := rfl
  unfold Packer.logicalByte
  split
  · refine Memory.read_eq_of_getBit fun i hlo hhi => ?_
    rw [← logicalBit_primary c p (by omega), ← logicalBit_primary c q (by omega)]
    exact h i hlo hhi
  · refine Memory.read_eq_of_getBit fun i hlo hhi => ?_
    have hbit := h (c.pbits + i) (by omega) (by omega)
    rwa [logicalBit_overflow c p (by omega), logicalBit_overflow c q (by omega), Nat.add_sub_cancel_left] at hbit

/-- PK_APPEND writes only the bytes its bits go to (R81). -/
theorem exec_pkAppend_logicalByte {s t : State} {x : Reg} (h : Inv s) (ht : exec (.pkAppend x) s = .next t) {a : Nat}
    (ha : a < s.packer.cur / 8 ∨ divUp (s.packer.cur + (s.seq x).len) 8 ≤ a) :
    t.packer.logicalByte t.cfg a = s.packer.logicalByte s.cfg a := by
  obtain ⟨-, rfl⟩ | ⟨-, p, hpacks, rfl⟩ := exec_pkAppend_packs h ht
  · rfl
  · rw [divUp_le_iff, ← BitSeq.value_length (h.seqs x)] at ha
    exact logicalByte_eq_of_logicalBit fun L hlo hhi => (hpacks.bit L).trans (if_neg (by omega))

theorem exec_pkDrainP_keeps_overflow {s t : State} (ht : exec .pkDrainP s = .next t) :
    t.packer.O = s.packer.O ∧ t.packer.ovf = s.packer.ovf ∧ t.packer.osize = s.packer.osize := by
  obtain ⟨-, rfl⟩ | ⟨-, data, -, rfl⟩ := exec_pkDrainP_next.mp ht
  · exact ⟨rfl, rfl, rfl⟩
  · exact ⟨rfl, rfl, rfl⟩

/-- Settles O25: no command of the unit writes a register, and its queries are none of the three that write the packer. -/
theorem pkFrame : Obligations.PkFrame := by
  intro i s t hsq h ht
  obtain ⟨hcfg, hin, hpos⟩ := exec_keeps_cfg_and_stream ht
  refine ⟨exec_seqs_of_not_isSq hsq ht, hcfg, hin, hpos, exec_adds_one_response ht, fun hq => ?_, ?_, ?_⟩
  · refine exec_packer_of_not_packer ht ?_
    rintro (⟨x, rfl⟩ | rfl | rfl) <;> cases hq
  · rintro x rfl a ha
    exact exec_pkAppend_logicalByte h ht ha
  · rintro rfl
    exact exec_pkDrainP_keeps_overflow ht

/-! ### Bounds (R88) -/

/-- Settles O45: CURSOR bounds the held bits and the bytes of a partial drain; a full drain returns the whole buffer. -/
theorem outputAndHeldBitsAreBounded : Obligations.OutputAndHeldBitsAreBounded := by
  refine fun s h => ⟨?_, fun t hv ht => ?_, fun t ht => ?_⟩
  · rw [heldBits_length]
    exact h.packer.cursor.cur_le
  · obtain ⟨p, hp, -⟩ := exec_pkDrainF_overflow h hv
    cases hp.symm.trans ht
    simp
  · obtain ⟨-, rfl⟩ | ⟨hv, -⟩ := exec_pkDrainP_next.mp ht
    · simp
    · cases (exec_pkDrainP_normal h hv).symm.trans ht
      simpa using (divUp_le_iff _ _).mpr (h.packer.cursor.normal hv).1

/-! ### Conservation of bits (R86) -/

section
variable {s t : State} {w : Word} {rec : Records}

/-- The records agree with a state: the bits appended are the bits drained and then the bits held. -/
def Records.Agree (rec : Records) (s : State) : Prop := rec.appended = rec.drained ++ s.packer.heldBits s.cfg

theorem note_of_status_ne_ok {r : Response} (hr : r.status ≠ .ok) : rec.note s w r = rec := if_neg hr

theorem note_of_decode_error {e : DecodeError} (hw : decodeWord w = .error e) (r : Response) : rec.note s w r = rec := by
  simp [Records.note, hw]

/-- Only PK_APPEND and the two drains are recorded. -/
theorem note_of_not_packer {i : Instr} (hw : decodeWord w = .ok i)
    (hi : ¬ ((∃ x, i = .pkAppend x) ∨ i = .pkDrainF ∨ i = .pkDrainP)) (r : Response) : rec.note s w r = rec := by
  cases i with
  | pkAppend _ | pkDrainF | pkDrainP => simp at hi
  | sqClear _ | sqAppend _ _ | sqGet _ _ | sqLen _ | sqClone _ _ | pkHasOvf | pkIsEmpty => simp [Records.note, hw]

theorem note_pkAppend {x : Reg} (hw : decodeWord w = .ok (.pkAppend x)) {r : Response} (hr : r.status = .ok) :
    rec.note s w r = { rec with appended := rec.appended ++ (s.seq x).value } := by
  simp [Records.note, hw, hr]

theorem note_pkDrainF (hw : decodeWord w = .ok .pkDrainF) {r : Response} (hr : r.status = .ok) :
    rec.note s w r = { rec with drained := rec.drained ++ bitsOfBytes r.data } := by
  simp [Records.note, hw, hr]

theorem note_pkDrainP (hw : decodeWord w = .ok .pkDrainP) {r : Response} (hr : r.status = .ok) :
    rec.note s w r = { rec with drained := rec.drained ++ (bitsOfBytes r.data).take s.packer.cur } := by
  simp [Records.note, hw, hr]

/-- A command that does not change the packer and is not recorded keeps the agreement. -/
theorem Records.Agree.of_note_eq {r : Response} (hrec : rec.Agree s) (hp : t.packer = s.packer) (hc : t.cfg = s.cfg)
    (hnote : rec.note s w r = rec) : (rec.note s w r).Agree t := by
  rw [hnote, Records.Agree, hp, hc]
  exact hrec

theorem Records.Agree.reject (hrec : rec.Agree s) {st : Status} (hst : st ≠ .ok) :
    (rec.note s w (s.reject st).lastResponse).Agree (s.reject st) :=
  hrec.of_note_eq rfl rfl (note_of_status_ne_ok (by rwa [lastResponse_reject]))

/-- Each command keeps the agreement: PK_APPEND's bits become held bits, and the bits a drain returns stop being held. -/
theorem Records.Agree.exec {i : Instr} (hinv : Inv s) (hrec : rec.Agree s) (hw : decodeWord w = .ok i)
    (ht : exec i s = .next t) : (rec.note s w t.lastResponse).Agree t := by
  obtain ⟨happend, hdrainF, hdrainP⟩ := drainDataAreTheHeldBits s hinv
  by_cases hi : (∃ x, i = .pkAppend x) ∨ i = .pkDrainF ∨ i = .pkDrainP
  swap
  · exact hrec.of_note_eq (exec_packer_of_not_packer ht hi) (exec_keeps_cfg_and_stream ht).1 (note_of_not_packer hw hi _)
  obtain ⟨x, rfl⟩ | rfl | rfl := hi
  · obtain ⟨-, rfl⟩ | ⟨hv, -⟩ := exec_pkAppend_next.mp ht
    · exact hrec.reject (by decide)
    · obtain ⟨p, hp, hheld⟩ := happend hv x
      cases hp.symm.trans ht
      rw [note_pkAppend hw (by simp), Records.Agree, hrec, List.append_assoc, ← hheld]
      rfl
  · obtain ⟨hv, -⟩ | ⟨-, rfl⟩ := exec_pkDrainF_next.mp ht
    · obtain ⟨p, data, hp, -, hheld⟩ := hdrainF hv
      cases hp.symm.trans ht
      rw [note_pkDrainF hw (by simp), Records.Agree, hrec, ← hheld, lastResponse_respond, List.append_assoc]
      rfl
    · exact hrec.reject (by decide)
  · obtain ⟨-, rfl⟩ | ⟨hv, -⟩ := exec_pkDrainP_next.mp ht
    · exact hrec.reject (by decide)
    · obtain ⟨p, data, hp, hdata, hheld⟩ := hdrainP hv
      cases hp.symm.trans ht
      have hreturned : (bitsOfBytes data).take s.packer.cur = s.packer.heldBits s.cfg := by
        rw [hdata, padBits, List.take_left' (heldBits_length _ _)]
      rw [note_pkDrainP hw (by simp), Records.Agree, hrec, lastResponse_respond, hreturned, respond_packer,
        setPacker_packer, respond_cfg, setPacker_cfg, hheld, List.append_nil]

/-- Each word, legal or not, is answered and keeps the invariants and the agreement. -/
theorem Records.Agree.issued (hinv : Inv s) (hrec : rec.Agree s) (w : Word) :
    ∃ t, issued w s = some t ∧ Inv t ∧ (rec.note s w t.lastResponse).Agree t := by
  cases hw : decodeWord w with
  | ok i =>
    obtain ⟨t, ht⟩ := exists_exec_next hinv.advance i
    refine ⟨t, ?_, exec_keeps_inv hinv.advance ht, Records.Agree.exec (s := s.advance) hinv.advance hrec hw ht⟩
    simp only [Machine.issued, issue_eq, perform_of_decode_ok hw, ht]
  | error e =>
    refine ⟨s.advance.reject .illegal, ?_, hinv.advance.reject _, hrec.of_note_eq rfl rfl (note_of_decode_error hw _)⟩
    simp only [Machine.issued, issue_eq, perform_of_decode_error hw]

theorem Records.Agree.recordAll (ws : List Word) (hinv : Inv s) (hrec : rec.Agree s) :
    ∃ t rec', recordAll ws s rec = some (t, rec') ∧ rec'.Agree t := by
  induction ws generalizing s rec with
  | nil => exact ⟨s, rec, rfl, hrec⟩
  | cons w ws ih =>
    obtain ⟨u, hu, hinv', hrec'⟩ := hrec.issued hinv w
    simpa only [Machine.recordAll, hu, Option.bind_some] using ih hinv' hrec'

/-- A word whose response is not OK has been rejected, in whatever state it was issued (R92). -/
theorem perform_of_status_ne_ok (ht : perform w s = .next t) (hst : t.lastResponse.status ≠ .ok) :
    ∃ st, t = s.reject st := by
  obtain ⟨i, -, hp⟩ | ⟨e, -, hp⟩ := perform_cases w s
  · exact exec_of_status_ne_ok (hp.symm.trans ht) hst
  · cases hp.symm.trans ht
    exact ⟨_, rfl⟩

end

/-- Settles O42: every word keeps the agreement, which holds at reset with empty records; a rejection is one response. -/
theorem conservationOfBits : Obligations.ConservationOfBits := by
  refine ⟨fun ws s rec => Records.Agree.recordAll ws, fun ws c => ?_, fun s t w rec ht hst => ?_⟩
  · exact Records.Agree.recordAll (rec := ⟨[], []⟩) ws (inv_resetOf c) rfl
  · obtain ⟨st, rfl⟩ := perform_of_status_ne_ok ht hst
    exact ⟨note_of_status_ne_ok hst, rfl⟩

/-! ### Words that are not rejected -/

/-- The host's words took the block from `s` to `t`, and none of them was rejected. -/
structure Accepted (s t : State) : Prop where
  inv : Inv t
  cfg : t.cfg = s.cfg
  responses : ∃ rs, t.responses = s.responses ++ rs ∧ ∀ r ∈ rs, r.status = .ok

section
variable {s u t : State}

theorem accepted_refl (h : Inv s) : Accepted s s := ⟨h, rfl, [], by simp, by simp⟩

/-- One more command, whose response is OK. -/
theorem Accepted.exec {i : Instr} (h : Accepted s u) (ht : exec i u.advance = .next t)
    (hst : t.lastResponse.status = .ok) : Accepted s t := by
  obtain ⟨r, hr⟩ := exec_adds_one_response ht
  obtain ⟨hcfg, -, -⟩ := exec_keeps_cfg_and_stream ht
  obtain ⟨rs, hrs, hall⟩ := h.responses
  have hlast : t.lastResponse = r := by simp [State.lastResponse, hr]
  refine ⟨exec_keeps_inv h.inv.advance ht, hcfg.trans h.cfg, rs ++ [r], ?_, ?_⟩
  · rw [hr, advance_responses, hrs, List.append_assoc]
  · intro r' hr'
    obtain hold | rfl := List.mem_append.mp hr' |>.imp_right List.mem_singleton.mp
    · exact hall r' hold
    · exact hlast ▸ hst

/-! ### Loading a codeword (R114) -/

/-- The SQ_APPENDs of a codeword append its bits, where the register has room. -/
theorem Accepted.issueAll_sqAppend {x : Reg} {q : List Bool} (h : Accepted s u)
    (hroom : (u.seq x).value.length + q.length ≤ u.cfg.wSeq) :
    ∃ t, issueAll (q.map fun b => encode (.sqAppend x b)) u = some t ∧ Accepted s t ∧ t.packer = u.packer ∧
      (t.seq x).value = (u.seq x).value ++ q := by
  induction q generalizing u with
  | nil => exact ⟨u, rfl, h, rfl, (List.append_nil _).symm⟩
  | cons b q ih =>
    rw [List.length_cons] at hroom
    have hlen := BitSeq.value_length (h.inv.seqs x)
    obtain ⟨r, hvalue, hexec⟩ := exec_sqAppend_room (h.inv.seqs x) (by omega) b
    have hstep := hexec u.advance x rfl rfl
    obtain ⟨t, ht, hacc, hpacker, hseq⟩ := ih (h.exec hstep (by simp)) (by simp [hvalue]; omega)
    refine ⟨t, ?_, hacc, hpacker, ?_⟩
    · rw [List.map_cons, issueAll, issued_encode hstep, Option.bind_some, ht]
    · rw [hseq, respond_seq, seq_setSeq_same, hvalue, List.append_assoc, List.singleton_append]

/-- Loading a codeword of at most W_SEQ bits leaves it in the register, and the packer as it was. -/
theorem Accepted.load {x : Reg} {q : List Bool} (h : Accepted s u) (hq : q.length ≤ u.cfg.wSeq) :
    ∃ t, load x q u = some t ∧ Accepted s t ∧ t.packer = u.packer ∧ (t.seq x).value = q := by
  by_cases hheld : (u.seq x).value = q
  · exact ⟨u, if_pos hheld, h, rfl, hheld⟩
  · have hclear : Machine.exec (.sqClear x) u.advance =
        .next ((u.advance.setSeq x (BitSeq.empty u.cfg.wSeq)).respond 0 []) := rfl
    obtain ⟨t, ht, hacc, hpacker, hseq⟩ := (h.exec hclear (by simp)).issueAll_sqAppend (x := x) (q := q) (by simpa using hq)
    refine ⟨t, ?_, hacc, hpacker, by simpa using hseq⟩
    rw [Machine.load, if_neg hheld, loadWords, issueAll, issued_encode hclear, Option.bind_some, ht]

end

/-! ### Bits and bytes of the packed stream -/

theorem length_bitsOfBytes (bs : List Byte) : (bitsOfBytes bs).length = 8 * bs.length := by
  simp [bitsOfBytes, Nat.mul_comm]

theorem bitsOfBytes_append (xs ys : List Byte) : bitsOfBytes (xs ++ ys) = bitsOfBytes xs ++ bitsOfBytes ys :=
  List.flatMap_append

/-- Whole bytes in front of a stream do not change its padding. -/
theorem bitsOfBytes_append_padBits (bs : List Byte) (q : List Bool) :
    bitsOfBytes bs ++ padBits q = padBits (bitsOfBytes bs ++ q) := by
  rw [padBits, padBits, List.length_append, length_bitsOfBytes, Nat.mul_add_mod, List.append_assoc]

/-- The data of a PK_DRAINF and the bits it carries are the bits held before (R45, R83). -/
theorem bitsOfBytes_append_carried {c : Config} {p q : Packer} (hpast : c.pbits ≤ p.cur) (hq : q.cur ≤ c.pbits)
    (hcur : q.cur = p.cur - c.pbits) (hmoved : q.P = p.O) :
    bitsOfBytes ((List.range c.capBytes).map p.P.read) ++ q.heldBits c = p.heldBits c := by
  rw [bitsOfBytes_read, heldBits_primary hq, heldBits_overflow hpast, hcur, hmoved, Config.pbits]

/-! ### The Encoder protocol (R87, R89, R114) -/

theorem exec_pkHasOvf_normal {s : State} (hv : s.packer.ovf = false) : exec .pkHasOvf s = .next (s.respond 0 []) := by
  simp [pkHasOvfReportsOverflow.1, hv]

theorem exec_pkHasOvf_overflow {s : State} (hv : s.packer.ovf = true) : exec .pkHasOvf s = .next (s.respond 1 []) := by
  simp [pkHasOvfReportsOverflow.1, hv]

namespace Stream

/-- The host has encoded the bits `q` from the state `s`: they are the bits drained and then the bits held, each PK_DRAINF
returned CAP_BYTES bytes, and once there was one at least one bit is held. -/
structure Encodes (s : State) (q : List Bool) (h : Stream) : Prop where
  accepted : Accepted s h.state
  normal : h.state.packer.ovf = false
  bits : bitsOfBytes h.output ++ h.state.packer.heldBits s.cfg = q
  bytes : h.output.length = s.cfg.capBytes * h.drains
  pending : h.drains ≠ 0 → h.state.packer.cur ≠ 0

section
variable {s a d : State} {h : Stream} {q : List Bool} {x : Reg}

/-- PK_HASOVF reports 0, and the host goes on. -/
theorem append_of_normal (ha : exec (.pkAppend x) h.state.advance = .next a) (hv : a.packer.ovf = false) :
    h.append x = some { h with state := a.advance.respond 0 [] } := by
  simp [append, issued_encode ha, issued_encode (exec_pkHasOvf_normal (s := a.advance) hv)]

/-- PK_HASOVF reports 1, and the host drains the full buffer. -/
theorem append_of_overflow (ha : exec (.pkAppend x) h.state.advance = .next a) (hv : a.packer.ovf = true)
    (hd : exec .pkDrainF (a.advance.respond 1 []).advance = .next d) :
    h.append x = some ⟨d, h.output ++ d.lastResponse.data, h.drains + 1⟩ := by
  simp only [append, issued_encode ha, issued_encode (exec_pkHasOvf_overflow (s := a.advance) hv), issued_encode hd,
    lastResponse_respond, Option.bind_some, Option.map_some, if_true]

/-- Loading a register does not change what is encoded. -/
theorem Encodes.withState (hq : h.Encodes s q) (ha : Accepted s a) (hp : a.packer = h.state.packer) :
    Encodes s q { h with state := a } :=
  ⟨ha, hp ▸ hq.normal, by rw [hp]; exact hq.bits, hq.bytes, by rw [hp]; exact hq.pending⟩

/-- The protocol's PK_APPEND, PK_HASOVF and, in overflow mode, PK_DRAINF encode the register's value. -/
theorem Encodes.append (hq : h.Encodes s q) (x : Reg) :
    ∃ g, h.append x = some g ∧ g.Encodes s (q ++ (h.state.seq x).value) := by
  have hcfg := hq.accepted.cfg
  obtain ⟨p, ha, hpacks⟩ := exec_pkAppend_normal hq.accepted.inv.advance hq.normal x
  have hacc := hq.accepted.exec ha (by simp)
  have hheld : bitsOfBytes h.output ++ p.heldBits s.cfg = q ++ (h.state.seq x).value := by
    rw [← hq.bits, List.append_assoc, ← hcfg]
    exact congrArg _ hpacks.heldBits
  cases hv : p.ovf with
  | false =>
    refine ⟨_, append_of_normal ha hv, hacc.exec (exec_pkHasOvf_normal hv) (by simp), hv, hheld, hq.bytes, fun hd => ?_⟩
    have hcur : p.cur = h.state.packer.cur + (h.state.seq x).value.length := hpacks.cur
    have hpending := hq.pending hd
    exact fun hzero : p.cur = 0 => hpending (by omega)
  | true =>
    have hacc' := hacc.exec (exec_pkHasOvf_overflow hv) (by simp)
    obtain ⟨r, hr, hok, hnormal, hcur, hmoved⟩ := exec_pkDrainF_moves hacc'.inv.advance hv
    have hpast := (hacc'.inv.packer.cursor.overflow hv).1
    have hroom := (hok.cursor.normal hnormal).1
    refine ⟨_, append_of_overflow ha hv hr, hacc'.exec hr (by simp), hnormal, ?_, ?_, fun _ => ?_⟩
    · rw [← hheld, lastResponse_respond, bitsOfBytes_append, List.append_assoc, ← hcfg]
      exact congrArg _ (bitsOfBytes_append_carried (Nat.le_of_lt hpast) hroom hcur hmoved)
    · simp [hq.bytes, hcfg, Nat.mul_succ]
    · exact hcur ▸ Nat.sub_ne_zero_of_lt hpast

/-- The protocol's loop encodes the codewords after what it has encoded. -/
theorem Encodes.encodeAll {qs : List (Reg × List Bool)} (hq : h.Encodes s q) (hqs : ∀ xq ∈ qs, xq.2.length ≤ s.cfg.wSeq) :
    ∃ g, h.encodeAll qs = some g ∧ g.Encodes s (q ++ qs.flatMap Prod.snd) := by
  induction qs generalizing h q with
  | nil => exact ⟨h, rfl, by simpa using hq⟩
  | cons xq qs ih =>
    obtain ⟨x, w⟩ := xq
    rw [List.forall_mem_cons] at hqs
    obtain ⟨u, hu, hacc, hpacker, hvalue⟩ := hq.accepted.load (x := x) (q := w) (hq.accepted.cfg ▸ hqs.1)
    obtain ⟨g, hg, hencodes⟩ := (hq.withState hacc hpacker).append x
    obtain ⟨f, hf, hall⟩ := ih hencodes hqs.2
    refine ⟨f, ?_, ?_⟩
    · rw [Stream.encodeAll, hu, Option.bind_some, hg, Option.bind_some, hf]
    · rwa [hvalue, List.append_assoc] at hall

/-- The closing PK_DRAINP returns the held bits, padded to bytes. -/
theorem Encodes.finish (hq : h.Encodes s q) :
    ∃ d, h.finish = some ⟨d, h.output ++ d.lastResponse.data, h.drains⟩ ∧ Accepted s d ∧
      d.lastResponse.data.length = divUp h.state.packer.cur 8 ∧
      bitsOfBytes (h.output ++ d.lastResponse.data) = padBits q := by
  have hd := exec_pkDrainP_normal hq.accepted.inv.advance hq.normal
  refine ⟨_, by rw [Stream.finish, issued_encode hd, Option.map_some], hq.accepted.exec hd (by simp), by simp, ?_⟩
  rw [lastResponse_respond, bitsOfBytes_append, ← hq.bits, ← bitsOfBytes_append_padBits, ← hq.accepted.cfg]
  exact congrArg _ (bitsOfBytes_written hq.accepted.inv.packer hq.normal)

/-- The bits of a stream are in CAP_BYTES bytes for each PK_DRAINF, and held. -/
theorem Encodes.length (hq : h.Encodes s q) : q.length = s.cfg.pbits * h.drains + h.state.packer.cur := by
  rw [← hq.bits, List.length_append, length_bitsOfBytes, heldBits_length, hq.bytes, Config.pbits, Nat.mul_assoc]

end

end Stream

/-- Before its closing PK_DRAINP the Encoder protocol has encoded all its codewords. -/
theorem exists_encodes {s : State} {qs : List (Reg × List Bool)} (hinv : Inv s) (hcur : s.packer.cur = 0)
    (hqs : ∀ xq ∈ qs, xq.2.length ≤ s.cfg.wSeq) :
    ∃ g : Stream, encodeStream qs s = g.finish ∧ g.Encodes s (qs.flatMap Prod.snd) := by
  have hreset := hinv.packer.eq_reset_of_cur_eq_zero hcur
  have hstart : Stream.Encodes s [] ⟨s, [], 0⟩ :=
    ⟨accepted_refl hinv, by rw [hreset]; rfl, by rw [hreset]; rfl, rfl, fun h => absurd rfl h⟩
  obtain ⟨g, hg, hencodes⟩ := hstart.encodeAll hqs
  exact ⟨g, by rw [encodeStream, hg, Option.bind_some], hencodes⟩

/-- Settles O43: drained and held bits are the codewords' after every codeword, and the closing drain pads the held ones. -/
theorem encoderOutputIsThePackedStream : Obligations.EncoderOutputIsThePackedStream := by
  intro s qs hinv hcur hqs
  obtain ⟨g, hg, hencodes⟩ := exists_encodes hinv hcur hqs
  obtain ⟨d, hd, hacc, -, hbits⟩ := hencodes.finish
  obtain ⟨rs, hrs, hall⟩ := hacc.responses
  exact ⟨_, rs, hg.trans hd, hbits, hrs, hall⟩

theorem divUp_pbits (c : Config) : divUp c.pbits 8 = c.capBytes := by
  unfold divUp Config.pbits
  omega

/-- Settles O44: the bits that are not drained are held, at most PBITS of them and at least one after the first. -/
theorem overflowFrequency : Obligations.OverflowFrequency := by
  intro s qs h hinv hcur hqs hrun
  obtain ⟨g, hg, hencodes⟩ := exists_encodes hinv hcur hqs
  obtain ⟨d, hd, -, hdata, -⟩ := hencodes.finish
  cases (hg.trans hd).symm.trans hrun
  have hroom : g.state.packer.cur ≤ s.cfg.pbits :=
    hencodes.accepted.cfg ▸ (hencodes.accepted.inv.packer.cursor.normal hencodes.normal).1
  have hpos := pbits_pos s.cfg
  rw [hencodes.length, Nat.mul_add_mod, Nat.mul_add_div hpos, ← List.length_eq_zero_iff, hdata]
  dsimp only
  obtain hlt | hfull := Nat.lt_or_eq_of_le hroom
  · rw [Nat.mod_eq_of_lt hlt, Nat.div_eq_of_lt hlt]
    refine ⟨fun _ => ⟨rfl, rfl⟩, fun hnone hsome => ?_, fun hnone => ?_⟩
    · have hdrains : g.drains = 0 := not_imp_not.mp hencodes.pending hnone
      simp [hdrains, hnone] at hsome
    · obtain ⟨hdrains, hheld⟩ := Nat.add_eq_zero_iff.mp hnone
      exact ⟨(Nat.mul_eq_zero.mp hdrains).resolve_left hpos.ne', by rw [hheld]; rfl⟩
  · rw [hfull, Nat.mod_self, Nat.div_self hpos]
    exact ⟨fun h => absurd rfl h, fun _ _ => ⟨rfl, divUp_pbits s.cfg⟩, fun h => absurd h (by omega)⟩

end Machine

end Sys2Proof

/-! PROOFS. Status and rejection (spec/60_exceptions.md): what a rejected word leaves unchanged, and the one status of every
word in the order of the checks. -/

namespace Sys2Proof.Machine

/-! ### Rejection -/

section
variable {s t : State}

/-- Every word that is answered, legal or not, has one response (R66). -/
theorem perform_adds_one_response {w : Word} (ht : perform w s = .next t) :
    ∃ r, t.responses = s.responses ++ [r] := by
  obtain ⟨i, -, hp⟩ | ⟨e, -, hp⟩ := perform_cases w s
  · exact exec_adds_one_response (hp.symm.trans ht)
  · cases hp.symm.trans ht
    exact ⟨_, reject_responses _ _⟩

theorem lastResponse_of_responses {rs : List Response} {r : Response} (h : t.responses = rs ++ [r]) :
    t.lastResponse = r := by
  simp [State.lastResponse, h]

end

/-- Settles O26: a word whose response is not OK has taken the one rejection, at the next position of the stream. -/
theorem rejectionChangesNothing : Obligations.RejectionChangesNothing := by
  intro s t w ht
  rw [issue_eq] at ht
  obtain ⟨r, hr⟩ := perform_adds_one_response ht
  refine ⟨r, hr, fun hst => ?_⟩
  have hlast := lastResponse_of_responses hr
  obtain ⟨st, rfl⟩ := perform_of_status_ne_ok ht (hlast ▸ hst)
  rw [lastResponse_reject] at hlast
  subst hlast
  exact ⟨rfl, rfl, rfl⟩

/-! ### The status of every word -/

/-- The status of a command by its single state check (R98). -/
def stateCheck (s : State) : Instr → Status
  | .sqAppend d _ => if (s.seq d).len = s.cfg.wSeq then .seqFull else .ok
  | .sqGet d i => if (s.seq d).len ≤ i.toNat then .indexOutOfRange else .ok
  | .pkAppend _ | .pkDrainP => if s.packer.ovf then .overflowPending else .ok
  | .pkDrainF => if s.packer.ovf then .ok else .noOverflow
  | .sqClear _ | .sqLen _ | .sqClone _ _ | .pkHasOvf | .pkIsEmpty => .ok

/-- A command that answers does so with the status of its state check, in whatever state it is performed. -/
theorem exec_responds_stateCheck {s t : State} {i : Instr} (ht : exec i s = .next t) :
    ∃ r, t.responses = s.responses ++ [r] ∧ r.status = stateCheck s i := by
  cases i with
  | sqAppend d b =>
    obtain ⟨hfull, rfl⟩ | ⟨hroom, q, -, rfl⟩ := exec_sqAppend_next.mp ht
    · exact ⟨_, rfl, (if_pos hfull).symm⟩
    · exact ⟨_, rfl, (if_neg hroom).symm⟩
  | sqGet d k =>
    obtain ⟨hout, rfl⟩ | ⟨hin, b, -, rfl⟩ := exec_sqGet_next.mp ht
    · exact ⟨_, rfl, (if_pos hout).symm⟩
    · exact ⟨_, rfl, (if_neg (Nat.not_le_of_lt hin)).symm⟩
  | pkAppend x =>
    obtain ⟨hv, rfl⟩ | ⟨hv, bits, p, -, -, rfl⟩ := exec_pkAppend_next.mp ht <;>
      exact ⟨_, rfl, by rw [stateCheck, hv]; rfl⟩
  | pkDrainF =>
    obtain ⟨hv, data, p, -, -, rfl⟩ | ⟨hv, rfl⟩ := exec_pkDrainF_next.mp ht <;>
      exact ⟨_, rfl, by rw [stateCheck, hv]; rfl⟩
  | pkDrainP =>
    obtain ⟨hv, rfl⟩ | ⟨hv, data, -, rfl⟩ := exec_pkDrainP_next.mp ht <;>
      exact ⟨_, rfl, by rw [stateCheck, hv]; rfl⟩
  | sqClear | sqLen | sqClone | pkHasOvf | pkIsEmpty => cases ht; exact ⟨_, rfl, rfl⟩

/-- Settles O27: decoding comes first, and a command answers from every good state with the status of its state check. -/
theorem statusOfEveryCommand : Obligations.StatusOfEveryCommand := by
  refine ⟨⟨rfl, rfl, rfl, rfl, rfl, rfl, fun st => by cases st <;> decide⟩, fun s w hinv => ?_⟩
  rw [issue_eq]
  cases hw : decodeWord w with
  | error e => exact ⟨_, _, perform_of_decode_error hw _, reject_responses _ _, rfl⟩
  | ok i =>
    obtain ⟨t, ht⟩ := exists_exec_next hinv.advance i
    obtain ⟨r, hr, hstatus⟩ := exec_responds_stateCheck ht
    refine ⟨t, r, (perform_of_decode_ok hw _).trans ht, hr, hstatus.trans ?_⟩
    cases i <;> rfl

end Sys2Proof.Machine

/-! PROOFS. Reset and hazards (spec/70_reset_and_hazards.md): every event of the host is answered, what a reset leaves, and the
order of append and drain in overflow mode. -/

namespace Sys2Proof.Machine

/-! ### Every word and every event is answered -/

section
variable {s t : State} {w : Word}

/-- From a good state every word, legal or not, is answered (R115). -/
theorem exists_perform_next (h : Inv s) (w : Word) : ∃ t, perform w s = .next t := by
  obtain ⟨i, -, hp⟩ | ⟨e, -, hp⟩ := perform_cases w s
  · rw [hp]
    exact exists_exec_next h i
  · exact ⟨_, hp⟩

/-- No word, legal or not, changes the configuration or what the host issues (R30). -/
theorem perform_keeps_cfg_and_stream (ht : perform w s = .next t) :
    t.cfg = s.cfg ∧ t.inbox = s.inbox ∧ t.pos = s.pos := by
  obtain ⟨i, -, hp⟩ | ⟨e, -, hp⟩ := perform_cases w s
  · exact exec_keeps_cfg_and_stream (hp.symm.trans ht)
  · cases hp.symm.trans ht
    exact ⟨rfl, rfl, rfl⟩

end

/-- Settles O40: a reset and an absent event have no condition, and a word is answered, before a reset too. -/
theorem noStepStops : Obligations.NoStepStops := by
  intro s h
  obtain ⟨-, hs⟩ | ⟨w, rest, -, hs⟩ | ⟨rest, -, hs⟩ | ⟨w, rest, -, hs | hs⟩ := step_cases s
  · exact ⟨_, hs⟩
  · obtain ⟨t, ht⟩ := exists_perform_next h.nextCommand w
    exact ⟨t, hs.trans ht⟩
  · exact ⟨_, hs⟩
  · exact ⟨_, hs⟩
  · obtain ⟨u, hu⟩ := exists_perform_next h.nextCommand w
    exact ⟨_, hs.trans (mapNext_eq_next.mpr ⟨u, hu, rfl⟩)⟩

/-! ### Reset (R109, R110) -/

section
variable {s : State} {w : Word}

theorem applyReset_block (s : State) : s.applyReset.block = (State.resetOf s.cfg).block := rfl

theorem step_of_inbox_reset {rest : List HostEvent} (h : s.inbox = .reset :: rest) :
    step s = .next s.takeEvent.applyReset := by
  simp only [step, h]

theorem step_of_inbox_commandDuringReset {rest : List HostEvent} (h : s.inbox = .commandDuringReset w :: rest) :
    step s = performDuringReset w (Config.resetFirst s.pos) s.takeEvent.advance := by
  simp only [step, h]

/-- A command during which a reset arrives is not performed, or is performed whole before the reset (R110). -/
theorem performDuringReset_of_inv (h : Inv s) (w : Word) (first : Bool) :
    performDuringReset w first s = .next s.applyReset ∨
      ∃ u, perform w s = .next u ∧ performDuringReset w first s = .next u.applyReset := by
  cases first with
  | true => exact .inl rfl
  | false =>
    obtain ⟨u, hu⟩ := exists_perform_next h w
    exact .inr ⟨u, hu, by simp [performDuringReset, hu]⟩

end

/-- Settles O5: the free value chooses between the reset alone and the command with the reset after it. -/
theorem resetDuringCommandIsBeforeOrAfter : Obligations.ResetDuringCommandIsBeforeOrAfter := by
  intro s w rest h hin
  have hnext : s.takeEvent.advance = { s with inbox := rest, pos := s.pos + 1 } := by
    simp only [State.takeEvent, State.advance, hin, List.tail_cons]
  rw [step_of_inbox_commandDuringReset hin]
  obtain hbefore | ⟨u, hu, hafter⟩ := performDuringReset_of_inv h.nextCommand w (Config.resetFirst s.pos)
  · refine ⟨_, hbefore, rfl, rfl, ?_, .inl rfl⟩
    rw [hnext]
    rfl
  · rw [hnext] at hu
    obtain ⟨hcfg, hinbox, -⟩ := perform_keeps_cfg_and_stream hu
    refine ⟨_, hafter, ?_, hcfg, hinbox, .inr ⟨u, (step_of_inbox_command rfl).trans hu, rfl⟩⟩
    rw [applyReset_block, hcfg]

/-! ### Registers that no word writes -/

section
variable {s t : State} {w : Word} {x : Reg}

/-- The word writes no register `x`: it is ILLEGAL, or its command's row of R23's table does not list `x`. -/
def Unwritten (x : Reg) (w : Word) : Prop := ∀ i, decodeWord w = .ok i → writesReg i x = false

theorem perform_seq_of_unwritten (hw : Unwritten x w) (ht : perform w s = .next t) : t.seq x = s.seq x := by
  obtain ⟨i, hdec, hp⟩ | ⟨e, -, hp⟩ := perform_cases w s
  · exact exec_seq_of_not_writes (hp.symm.trans ht) (hw i hdec)
  · cases hp.symm.trans ht
    exact reject_seq _ _ _

/-- No command writes all registers. -/
theorem exists_writesReg_eq_false (i : Instr) : ∃ x, writesReg i x = false := by
  obtain hw | ⟨d, rfl⟩ | ⟨d, b, rfl⟩ | ⟨d, src, rfl⟩ := writesReg_cases i
  · exact ⟨0, hw 0⟩
  all_goals exact (exists_ne d).imp fun _ hne => beq_false_of_ne hne

theorem exists_unwritten (w : Word) : ∃ x, Unwritten x w := by
  cases hw : decodeWord w with
  | ok i =>
    obtain ⟨x, hx⟩ := exists_writesReg_eq_false i
    exact ⟨x, fun j hj => by cases hw.symm.trans hj; exact hx⟩
  | error e => exact ⟨0, fun j hj => by cases hw.symm.trans hj⟩

theorem issued_of_perform (ht : perform w s.advance = .next t) : issued w s = some t := by
  simp only [issued, issue_eq, ht]

theorem issueAll_cons_of_issued (ht : issued w s = some t) (ws : List Word) : issueAll (w :: ws) s = issueAll ws t := by
  rw [issueAll, ht, Option.bind_some]

/-- A list of words from a good state is answered, keeps the invariants, and leaves a register none of them writes. -/
theorem issueAll_of_unwritten (h : Inv s) (ws : List Word) (hws : ∀ w ∈ ws, Unwritten x w) :
    ∃ t, issueAll ws s = some t ∧ Inv t ∧ t.seq x = s.seq x := by
  induction ws generalizing s with
  | nil => exact ⟨s, rfl, h, rfl⟩
  | cons w ws ih =>
    rw [List.forall_mem_cons] at hws
    obtain ⟨hw, hws⟩ := hws
    obtain ⟨u, hu⟩ := exists_perform_next h.advance w
    obtain ⟨t, ht, hinv, hseq⟩ := ih (perform_keeps_inv h.advance hu) hws
    exact ⟨t, (issueAll_cons_of_issued (issued_of_perform hu) ws).trans ht, hinv,
      hseq.trans (perform_seq_of_unwritten (s := s.advance) hw hu)⟩

end

/-- Settles O50: the register stays the empty sequence of reset, and packing no bits changes nothing. -/
theorem unwrittenRegisterPacksNothing : Obligations.UnwrittenRegisterPacksNothing := by
  intro c ws x hws
  obtain ⟨t, ht, hinv, hseq⟩ := issueAll_of_unwritten (inv_resetOf c) ws hws
  rw [resetOf_seq] at hseq
  exact ⟨t, ht, hseq, fun hv => exec_pkAppend_of_len_eq_zero hinv hv (by rw [hseq, BitSeq.empty_len]),
    fun hv => exec_pkAppend_next.mpr (.inl ⟨hv, rfl⟩)⟩

/-- Settles O3: every register is the empty sequence right after reset. -/
theorem appendRightAfterResetPacksNothing : Obligations.AppendRightAfterResetPacksNothing := fun c x =>
  exec_pkAppend_of_len_eq_zero (inv_resetOf c) rfl (by rw [resetOf_seq, BitSeq.empty_len])

/-- A one-bit sequence, for a register that is not as after reset. -/
def BitSeq.single (c : Config) : BitSeq := ⟨1, List.replicate c.wSeq false⟩

theorem BitSeq.single_ok (c : Config) : (BitSeq.single c).Ok c :=
  ⟨List.length_replicate, c.wSeq_pos, fun _ _ hi => by simp [single, getBit, hi]⟩

/-- Settles O4: a word leaves some register as it was, so it does not reset a block in which that register is not empty. -/
theorem resetEventResetsTheBlock : Obligations.ResetEventResetsTheBlock := by
  refine ⟨fun s rest hin => ⟨_, step_of_inbox_reset hin, rfl, rfl, ?_, rfl⟩, fun c w => ?_⟩
  · rw [applyReset_inbox, takeEvent_inbox, hin, List.tail_cons]
  · obtain ⟨x, hx⟩ := exists_unwritten w
    have hinv : Inv ((State.resetOf c).setSeq x (BitSeq.single c)) := (inv_resetOf c).setSeq x (BitSeq.single_ok c)
    obtain ⟨t, ht⟩ := exists_perform_next hinv.advance w
    refine ⟨_, t, rfl, hinv, ht, fun hreset => ?_⟩
    have hseq : t.seq x = (State.resetOf c).seq x := congrArg (fun b : Block => b.seqs.get x) hreset
    rw [perform_seq_of_unwritten hx ht, advance_seq, seq_setSeq_same, resetOf_seq] at hseq
    exact absurd (congrArg BitSeq.len hseq) Nat.one_ne_zero

/-! ### Overflow mode (R117) -/

section
variable {s t : State} {i : Instr}

/-- In overflow mode the packer unit's commands other than PK_DRAINF leave the block as it was. -/
theorem exec_block_of_overflow (hsq : isSq i = false) (hi : i ≠ .pkDrainF) (hv : s.packer.ovf = true)
    (ht : exec i s = .next t) : t.block = s.block := by
  cases i with
  | sqClear | sqAppend | sqGet | sqLen | sqClone => cases hsq
  | pkAppend x =>
    obtain ⟨-, rfl⟩ | ⟨hn, -⟩ := exec_pkAppend_next.mp ht
    · exact reject_block _ _
    · cases hv.symm.trans hn
  | pkDrainF => exact absurd rfl hi
  | pkDrainP =>
    obtain ⟨-, rfl⟩ | ⟨hn, -⟩ := exec_pkDrainP_next.mp ht
    · exact reject_block _ _
    · cases hv.symm.trans hn
  | pkHasOvf | pkIsEmpty => cases ht; rfl

/-- The state check that answers OVERFLOW_PENDING is that of PK_APPEND and of PK_DRAINP (R98, R117). -/
theorem stateCheck_eq_overflowPending_iff (hv : s.packer.ovf = true) :
    stateCheck s i = .overflowPending ↔ (∃ x, i = .pkAppend x) ∨ i = .pkDrainP := by
  cases i with
  | sqAppend | sqGet => simp only [stateCheck]; split <;> simp
  | pkAppend | pkDrainF | pkDrainP | sqClear | sqLen | sqClone | pkHasOvf | pkIsEmpty => simp [stateCheck, hv]

theorem ovf_of_exec_pkDrainF (h : Inv s) (hv : s.packer.ovf = true) (ht : exec .pkDrainF s = .next t) :
    t.packer.ovf = false := by
  obtain ⟨p, hp, hnormal, -, -⟩ := exec_pkDrainF_overflow h hv
  cases hp.symm.trans ht
  exact hnormal

end

/-- Settles O29: OVF decides the state check of each packer command, and the two that check for OVF = 0 are rejected. -/
theorem drainBeforeAppend : Obligations.DrainBeforeAppend := by
  intro i s h hv
  obtain ⟨t, ht⟩ := exists_exec_next h i
  obtain ⟨r, hr, hstatus⟩ := exec_responds_stateCheck ht
  refine ⟨t, r, ht, hr, fun hsq hne => ?_, ?_, ?_⟩
  · by_contra hi
    exact hne (exec_block_of_overflow hsq hi hv ht)
  · rw [hstatus, stateCheck_eq_overflowPending_iff hv]
  · rintro rfl
    exact ⟨hstatus.trans (if_pos hv), ovf_of_exec_pkDrainF h hv ht⟩

/-! ### Reissuing a rejected append (R118) -/

/-- The state with another position of the command stream and other responses: neither is state of the block (R20). -/
def State.withHistory (s : State) (n : Nat) (rs : List Response) : State := { s with pos := n, responses := rs }

@[simp] theorem withHistory_responses (s : State) (n : Nat) (rs : List Response) :
    (s.withHistory n rs).responses = rs := rfl

section
variable {s t : State}

/-- A command's effect on the block and its response depend neither on earlier responses nor on its position (R20, R36). -/
theorem exec_withHistory {i : Instr} (ht : exec i s = .next t) :
    ∃ r, t.responses = s.responses ++ [r] ∧
      ∀ n rs, exec i (s.withHistory n rs) = .next (t.withHistory n (rs ++ [r])) := by
  cases i with
  | sqAppend d b =>
    obtain ⟨hfull, rfl⟩ | ⟨hroom, q, hq, rfl⟩ := exec_sqAppend_next.mp ht
    · exact ⟨_, rfl, fun _ _ => exec_sqAppend_next.mpr (.inl ⟨hfull, rfl⟩)⟩
    · exact ⟨_, rfl, fun _ _ => exec_sqAppend_next.mpr (.inr ⟨hroom, q, hq, rfl⟩)⟩
  | sqGet d k =>
    obtain ⟨hout, rfl⟩ | ⟨hin, b, hb, rfl⟩ := exec_sqGet_next.mp ht
    · exact ⟨_, rfl, fun _ _ => exec_sqGet_next.mpr (.inl ⟨hout, rfl⟩)⟩
    · exact ⟨_, rfl, fun _ _ => exec_sqGet_next.mpr (.inr ⟨hin, b, hb, rfl⟩)⟩
  | pkAppend x =>
    obtain ⟨hv, rfl⟩ | ⟨hv, bits, p, hread, hpack, rfl⟩ := exec_pkAppend_next.mp ht
    · exact ⟨_, rfl, fun _ _ => exec_pkAppend_next.mpr (.inl ⟨hv, rfl⟩)⟩
    · exact ⟨_, rfl, fun _ _ => exec_pkAppend_next.mpr (.inr ⟨hv, bits, p, hread, hpack, rfl⟩)⟩
  | pkDrainF =>
    obtain ⟨hv, data, p, hdata, hcarry, rfl⟩ | ⟨hv, rfl⟩ := exec_pkDrainF_next.mp ht
    · exact ⟨_, rfl, fun _ _ => exec_pkDrainF_next.mpr (.inl ⟨hv, data, p, hdata, hcarry, rfl⟩)⟩
    · exact ⟨_, rfl, fun _ _ => exec_pkDrainF_next.mpr (.inr ⟨hv, rfl⟩)⟩
  | pkDrainP =>
    obtain ⟨hv, rfl⟩ | ⟨hv, data, hdata, rfl⟩ := exec_pkDrainP_next.mp ht
    · exact ⟨_, rfl, fun _ _ => exec_pkDrainP_next.mpr (.inl ⟨hv, rfl⟩)⟩
    · exact ⟨_, rfl, fun _ _ => exec_pkDrainP_next.mpr (.inr ⟨hv, data, hdata, rfl⟩)⟩
  | sqClear | sqLen | sqClone | pkHasOvf | pkIsEmpty => cases ht; exact ⟨_, rfl, fun _ _ => rfl⟩

/-- Issuing a command's word after another history: the same block, and the same response added. -/
theorem issued_encode_withHistory {i : Instr} {r : Response} (ht : exec i s.advance = .next t)
    (hr : t.responses = s.responses ++ [r]) (n : Nat) (rs : List Response) :
    issued (encode i) (s.withHistory n rs) = some (t.withHistory (n + 1) (rs ++ [r])) := by
  obtain ⟨r', hr', hexec⟩ := exec_withHistory ht
  cases List.append_cancel_left (hr'.symm.trans hr)
  exact issued_encode (hexec (n + 1) rs)

end

/-- Settles O46: the rejection changes the history alone, and the drain and the append that follow do not read it. -/
theorem rejectedAppendCanBeReissued : Obligations.RejectedAppendCanBeReissued := by
  intro s x h hv
  have hreject : issued (encode (.pkAppend x)) s =
      some (s.withHistory (s.pos + 1) (s.responses ++ [⟨.overflowPending, 0, []⟩])) :=
    issued_encode (exec_pkAppend_next.mpr (.inl ⟨hv, rfl⟩))
  obtain ⟨p, hdrain, hnormal, -, -⟩ := exec_pkDrainF_overflow h.advance hv
  have hinv := exec_keeps_inv h.advance hdrain
  obtain ⟨q, happend, -⟩ := exec_pkAppend_normal hinv.advance hnormal x
  refine ⟨_, _, (issueAll_cons_of_issued hreject _).trans <|
      (issueAll_cons_of_issued (issued_encode_withHistory hdrain rfl _ _) _).trans <|
      issueAll_cons_of_issued (issued_encode_withHistory happend rfl _ _) [],
    issueAll_encode_pair hdrain happend, rfl, (List.range s.cfg.capBytes).map s.packer.P.read, ?_⟩
  simp

end Sys2Proof.Machine
